-- ==== Sys2Proof/Word.lean ====
section
/-! DEFINITION. The vocabulary of values: bytes, pin identifiers, glyph patterns, GPIO levels, pin roles and fault
codes. Rules R<n> are those of spec/. -/

namespace Sys2Proof

/-- One byte of a command frame; every field of every frame is one byte (R48, R61). -/
abbrev Byte := BitVec 8

/-- A "physical output identifier" of the host's GPIO (R13), an index into the pin space 0 .. 2^`PIN_ID_WIDTH` - 1
(R40). No rule adds, shifts or masks one, and the width is a parameter (R8; log 4), so it is a number, whose bound is
checked where a pin is configured. -/
abbrev PinId := Nat

/-- A glyph pattern: bit 0 is segment A, up to bit 6, segment G; 1 means lit (R90). -/
abbrev Pattern := BitVec 7

/-- The two GPIO levels (R10). "No known level" is `none` of `Option Level`. -/
inductive Level where
  | low
  | high
deriving DecidableEq, Repr

/-- The 12 logical lines, in the order of the role numbers 0 to 11 (R21). -/
inductive Role where
  | segA | segB | segC | segD | segE | segF | segG
  | dp
  | dig1 | dig2 | dig3 | dig4
deriving DecidableEq, Repr

/-- The slot counter's behaviour at a decimal point (R8, R106, C3). -/
inductive DpSlotPolicy where
  | netZero
  | drift
deriving DecidableEq, Repr

/-- The five fault codes (R151). -/
inductive FaultCode where
  /-- 1: the decoder met a reserved OP (R152). -/
  | undefinedOpcode
  /-- 2: RENDER_STATE met a FLAG other than 0x00 and 0x01 (R153). -/
  | reservedOperand
  /-- 3: `GpioConfigure` of a pin that is not valid (R44, R153). -/
  | invalidPin
  /-- 4: `LutRead` of a key outside the 15 (R92); no stream reaches it (R154). -/
  | undefinedGlyphKey
  /-- 5: `GpioWrite` to a pin that is not configured (R45); no stream reaches it (R154). -/
  | unconfiguredPinWrite
deriving DecidableEq, Repr

end Sys2Proof
end

