-- ==== Sys2Proof/Config.lean ====
section
/-! DEFINITION. The parameters of the block (R8), fixed for the life of the machine. "A model takes each one as an
argument": here they are one plain-data record, which State carries and no step writes (log 1). No parameter has a
value in this file; the defaults stand in Machine/Params.lean. -/

namespace Sys2Proof

/-- The nine parameters of R8. -/
structure Config where
  /-- `PIN_ID_WIDTH` (log 4). -/
  pinIdWidth : Nat
  /-- `GLYPH_LUT`, indexed by the key numbers of R90. -/
  glyphLut : Vector Pattern 15
  /-- `DEFAULT_PINS`, indexed by role number (R21). OPEN in the spec (D20). -/
  defaultPins : Vector PinId 12
  /-- `PIN_VALID` as plain data: the pins it is false of, all other PinIds being valid (R8, log 5). -/
  absentPins : List PinId
  /-- `SEG_LIT_LEVEL` (R8, R95). -/
  segLit : Level
  /-- `DP_LIT_LEVEL`, whose value LOW the source fixes (R8; log 1). -/
  dpLit : Level
  /-- `EN_ACTIVE_LEVEL`, whose value HIGH the source fixes (R8; log 1). -/
  enActive : Level
  /-- `SETTLE`, a positive number of time units (R9). OPEN in the spec (D19). -/
  settle : Nat
  /-- `DP_SLOT_POLICY` (R106). -/
  dpSlotPolicy : DpSlotPolicy
deriving DecidableEq, Repr

end Sys2Proof
end

