-- ==== Sys2Proof/Machine/Params.lean ====
section
/-! DEFINITION. Role numbers, levels, the parameters as the rules use them, and the default parameters of R8. The
defaults are the spec's own choices or the model's (log 2, 3, 4, 5, 6, 7, 21): no rule but the test vectors depends on
them. -/

namespace Sys2Proof

/-- `not LOW = HIGH` and `not HIGH = LOW` (R10). -/
def Level.flip : Level → Level
  | .low => .high
  | .high => .low

/-- The role number (R21). -/
def Role.num : Role → Fin 12
  | .segA => 0
  | .segB => 1
  | .segC => 2
  | .segD => 3
  | .segE => 4
  | .segF => 5
  | .segG => 6
  | .dp => 7
  | .dig1 => 8
  | .dig2 => 9
  | .dig3 => 10
  | .dig4 => 11

/-- The 12 roles in role order (R21). -/
def Role.all : List Role :=
  [.segA, .segB, .segC, .segD, .segE, .segF, .segG, .dp, .dig1, .dig2, .dig3, .dig4]

/-- `SEG(j)` for j in 0..6: the segment roles, A first, with the pattern bit that drives each (R90, R94). -/
def segLines : List (Nat × Role) :=
  [(0, .segA), (1, .segB), (2, .segC), (3, .segD), (4, .segE), (5, .segF), (6, .segG)]

/-- `DIG(k)` for k in 1..4, in ascending slot order (R21). -/
def digLines : List (Int × Role) :=
  [(1, .dig1), (2, .dig2), (3, .dig3), (4, .dig4)]

/-- The fault code numbers of R151. -/
def FaultCode.number : FaultCode → Nat
  | .undefinedOpcode => 1
  | .reservedOperand => 2
  | .invalidPin => 3
  | .undefinedGlyphKey => 4
  | .unconfiguredPinWrite => 5

/-- `DP_UNLIT_LEVEL` (R8). -/
def Config.dpUnlit (c : Config) : Level := c.dpLit.flip

/-- `EN_INACTIVE_LEVEL` (R8). -/
def Config.enInactive (c : Config) : Level := c.enActive.flip

/-- `SEG_UNLIT_LEVEL` (R8). -/
def Config.segUnlit (c : Config) : Level := c.segLit.flip

/-- The pin space holds `p`: PinIds run from 0 to 2^`PIN_ID_WIDTH` - 1 (R40). -/
def Config.hasPin (c : Config) (p : Nat) : Bool := decide (p < 2 ^ c.pinIdWidth)

/-- `PIN_VALID` (R8, R44): true of the PinIds the parameter admits, and of no number outside the pin space (log 4). -/
def Config.pinValid (c : Config) (p : PinId) : Bool :=
  c.hasPin p && !c.absentPins.contains p

/-- `DEFAULT_PINS(r)` (R8, R171). -/
def Config.defaultPin (c : Config) (r : Role) : PinId :=
  c.defaultPins[r.num]

/-- The default `GLYPH_LUT`, row by row as R91 gives it (general knowledge, G3; log 6). -/
def defaultGlyphLut : Vector Pattern 15 :=
  #v[0x3F#7, 0x06#7, 0x5B#7, 0x4F#7, 0x66#7, 0x6D#7, 0x7D#7, 0x07#7, 0x7F#7, 0x6F#7,
     0x79#7, 0x50#7, 0x54#7, 0x71#7, 0x3F#7]

/-- `TEST_PINS` (spec/95_test_vectors.md part 0), the spec's illustrative layout (D33; log 2). -/
def testPins : Vector PinId 12 :=
  #v[2, 3, 4, 5, 6, 7, 8, 9, 10, 11, 12, 13]

/-- The default parameters (R8): the spec's where it gives one; TEST_PINS for the OPEN layout (log 2) and 1 for the
OPEN settle time (log 3). -/
def Config.default : Config where
  pinIdWidth := 8
  glyphLut := defaultGlyphLut
  defaultPins := testPins
  absentPins := []
  segLit := .low
  dpLit := .low
  enActive := .high
  settle := 1
  dpSlotPolicy := .netZero

end Sys2Proof
end

