-- ==== Sys2Proof/Machine/Gpio.lean ====
section
/-! DEFINITION. The GPIO output driver: the state of the pins (R23), the event trace (R34, R47) and the three
primitives that write them (R44, R45, R46). Every output of the block goes through these. -/

namespace Sys2Proof.Machine

/-- The state of one output line (R23): `cfg`, declared an output; `lvl`, the level last driven, `none` where the block
has no knowledge of it. -/
structure Pin where
  cfg : Bool
  lvl : Option Level
deriving DecidableEq, Repr

/-- What a pin that nothing has touched reads as: not configured, no known level (R35, R171; log 12). -/
def Pin.untouched : Pin := ⟨false, none⟩

/-- The GPIO pin space: the pins that differ from `Pin.untouched`, in rising order. -/
abbrev Pins := List (PinId × Pin)

/-- The canonical form: identifiers strictly rising, and no entry equal to what an unlisted pin reads as. Two pin
spaces in this form that read alike are equal. -/
abbrev Pins.wf (ps : Pins) : Prop :=
  ps.Pairwise (fun a b => a.1 < b.1) ∧ ∀ e ∈ ps, e.2 ≠ Pin.untouched

/-- The state of pin `p`. -/
def Pins.get : Pins → PinId → Pin
  | [], _ => Pin.untouched
  | (q, x) :: rest, p => if p = q then x else Pins.get rest p

/-- `p` and its state put in front of `rest`, unless the state is what an unlisted pin reads as. -/
def Pins.cons (p : PinId) (x : Pin) (rest : Pins) : Pins :=
  if x = Pin.untouched then rest else (p, x) :: rest

/-- The pin space with the state of pin `p` set to `x`, in canonical form. -/
def Pins.put : Pins → PinId → Pin → Pins
  | [], p, x => Pins.cons p x []
  | (q, y) :: rest, p, x =>
    if p < q then Pins.cons p x ((q, y) :: rest)
    else if p = q then Pins.cons p x rest
    else (q, y) :: Pins.put rest p x

/-- One event of the trace (R47): `Cfg(p)`, `W(p, v)` and `H(n)`. -/
inductive Event where
  | cfg (p : PinId)
  | w (p : PinId) (v : Level)
  | h (n : Nat)
deriving DecidableEq, Repr

/-- The driver's state: the pins and the trace so far, oldest event first. -/
structure Gpio where
  pins : Pins
  trace : List Event
deriving DecidableEq, Repr

/-- The driver before reset has configured anything (R171). -/
def Gpio.initial : Gpio := ⟨[], []⟩

/-- `GpioConfigure(p)` (R44); `valid` is `PIN_VALID(p)`. -/
def Gpio.configure (valid : Bool) (p : PinId) (g : Gpio) : Except FaultCode Gpio :=
  if valid then .ok { pins := g.pins.put p ⟨true, none⟩, trace := g.trace ++ [.cfg p] }
  else .error .invalidPin

/-- `GpioWrite(p, v)` (R45). -/
def Gpio.write (p : PinId) (v : Level) (g : Gpio) : Except FaultCode Gpio :=
  if (g.pins.get p).cfg then
    .ok { pins := g.pins.put p { g.pins.get p with lvl := some v }, trace := g.trace ++ [.w p v] }
  else .error .unconfiguredPinWrite

/-- `Hold(n)` (R46): it changes no state but the trace. -/
def Gpio.hold (n : Nat) (g : Gpio) : Gpio :=
  { g with trace := g.trace ++ [.h n] }

/-- Reset's last loop (R171): `GpioConfigure` of the given pins in order, up to the first that faults. -/
def Gpio.configureAll (valid : PinId → Bool) : List PinId → Gpio → Gpio × Option FaultCode
  | [], g => (g, none)
  | p :: ps, g =>
    match g.configure (valid p) p with
    | .ok g' => Gpio.configureAll valid ps g'
    | .error code => (g, some code)

end Sys2Proof.Machine
end

