-- ==== Sys2Proof/Machine/State.lean ====
section
/-! DEFINITION. Everything the spec gives the block (R20, R23, R27, R31, R34), the stream of bytes the host has given
it (R43), the parameters it was built with (R8), and the state right after reset (R35, R171). -/

namespace Sys2Proof.Machine

/-- Why a step does not exist. Both are the spec's own: a halted block executes no command (R31, R155) and a block that
waits for bytes has no step (R63). A `raise Fault(code)` of the spec is none of these; it is a NEXT state whose fault
record is set (log 8). -/
inductive Fault where
  /-- Raised by `step` when the fault record is set: "the block is halted and executes no command" (R31). Safe: the
  hardware makes no step either. -/
  | halted (code : FaultCode)
  /-- Raised by `step` when the frame at `spc` has not wholly arrived: "the block has no step" (R63, I13). Safe: the
  hardware makes no step either, until the host appends bytes (`State.arrive`). -/
  | awaitingFrame
deriving DecidableEq, Repr

/-- What the model gives no meaning. -/
inductive Refusal where
  /-- Raised by a refused arm of `exec`, an instruction without its meaning. Safe. No arm raises it now. -/
  | notModelled (mnemonic : String)
  /-- Raised by the meaning of RENDER_VALUE for a request of more than 255 characters, which "cannot be encoded, and a
  model refuses it" (D3, I19; log 15). Safe: no frame carries one. -/
  | requestTooLong
deriving DecidableEq, Repr

/-- The state of the block. -/
structure State where
  /-- The parameters (R8); no step writes them (log 1). -/
  config : Config
  /-- The 12 binding registers, by role number (R20). -/
  bind : Vector PinId 12
  /-- The GPIO pins and the event trace (R23, R34). -/
  gpio : Gpio
  /-- The bytes of the command stream that have arrived, offset 0 first (R43). -/
  stream : List Byte
  /-- The command-stream pointer (R27). -/
  spc : Nat
  /-- The fault record (R31). -/
  fault : Option FaultCode
  /-- The stream offset of the faulting frame (R31). -/
  faultAt : Option Nat
  /-- The OP byte of the faulting frame (R31). -/
  faultOp : Option Byte
deriving DecidableEq, Repr

/-- Reset, the construction of the block (R170, R171), with the given parameters and the bytes the host has given so
far. A default pin that is not valid leaves the block halted with INVALID_PIN, `faultAt` and `faultOp` none (R155). -/
def State.resetWith (c : Config) (stream : List Byte) : State :=
  let r := Gpio.configureAll c.pinValid (Role.all.map c.defaultPin) Gpio.initial
  { config := c
    bind := c.defaultPins
    gpio := r.1
    stream := stream
    spc := 0
    fault := r.2
    faultAt := none
    faultOp := none }

/-- The block right after reset with the default parameters, before the host has given any byte (R35; log 2, 3, 10). -/
def State.reset : State := State.resetWith Config.default []

end Sys2Proof.Machine
end

