-- ==== Sys2Proof/Machine/Operands.lean ====
section
/-! DEFINITION. The operand forms (R64) and the character classes (R10, R81, R93). -/

namespace Sys2Proof.Machine

/-- FLAG of RENDER_STATE: 0x00 is false, 0x01 is true, every other value is reserved (R64). -/
def flagOf (flag : Byte) : Option Bool :=
  if flag = 0x00#8 then some false
  else if flag = 0x01#8 then some true
  else none

/-- SLOT of SELECT_DIGIT, zero-extended to an integer (R64). -/
def slotOf (slot : Byte) : Int := (slot.toNat : Int)

/-- PIN of a setter (R64): the PinId is the operand's value, zero-extended to `PIN_ID_WIDTH` bits (log 4). -/
def pinOf (pin : Byte) : PinId := pin.toNat

/-- `0x30 <= c <= 0x39` (R80, R111; ASCII, log 19). -/
def isDigit (c : Byte) : Bool := decide (0x30#8 ≤ c ∧ c ≤ 0x39#8)

/-- `c = 0x2E` (R80; ASCII, log 19). -/
def isPoint (c : Byte) : Bool := decide (c = 0x2E#8)

/-- `DigitKey(c)`: key number `c - 0x30` (R93). -/
def digitKey (c : Byte) : Nat := c.toNat - 0x30

end Sys2Proof.Machine
end

