-- ==== Sys2Proof/Syntax.lean ====
section
/-! DEFINITION. The 17 commands, one constructor per row of spec/opcode_table.json (R65), with their operands as R64
decodes them. -/

namespace Sys2Proof

/-- One command. An operand byte is kept as the frame has it: R64 gives every value of SLOT, PIN and CH a meaning, and
a reserved FLAG faults when the command runs, not when it is decoded (R63, R113). -/
inductive Instr where
  /-- RENDER_VALUE, the request's characters left to right (R110). -/
  | renderValue (req : List Byte)
  /-- RENDER_STATE (R113). -/
  | renderState (flag : Byte)
  /-- RENDER_ERROR (R116). -/
  | renderError
  /-- CLEAR (R118). -/
  | clear
  /-- SELECT_DIGIT (R120). -/
  | selectDigit (slot : Byte)
  /-- SET_SEG_A (R132). -/
  | setSegA (pin : Byte)
  /-- SET_SEG_B (R133). -/
  | setSegB (pin : Byte)
  /-- SET_SEG_C (R134). -/
  | setSegC (pin : Byte)
  /-- SET_SEG_D (R135). -/
  | setSegD (pin : Byte)
  /-- SET_SEG_E (R136). -/
  | setSegE (pin : Byte)
  /-- SET_SEG_F (R137). -/
  | setSegF (pin : Byte)
  /-- SET_SEG_G (R138). -/
  | setSegG (pin : Byte)
  /-- SET_DP (R139). -/
  | setDp (pin : Byte)
  /-- SET_DIG1 (R140). -/
  | setDig1 (pin : Byte)
  /-- SET_DIG2 (R141). -/
  | setDig2 (pin : Byte)
  /-- SET_DIG3 (R142). -/
  | setDig3 (pin : Byte)
  /-- SET_DIG4 (R143). -/
  | setDig4 (pin : Byte)
deriving DecidableEq, Repr

end Sys2Proof
end

