-- ==== Sys2Proof/WellFormed.lean ====
section
/-! DEFINITION. Which terms of Instr a frame can carry. LEN is one byte, so a request has at most 255 characters (R61,
R64, D3); every other operand is one byte and every value of it decodes (R64). -/

namespace Sys2Proof

/-- The instruction has an encoding. A request of more than 255 characters has none (I19). -/
def Instr.wellFormed : Instr → Bool
  | .renderValue req => decide (req.length ≤ 255)
  | .renderState _ => true
  | .renderError => true
  | .clear => true
  | .selectDigit _ => true
  | .setSegA _ => true
  | .setSegB _ => true
  | .setSegC _ => true
  | .setSegD _ => true
  | .setSegE _ => true
  | .setSegF _ => true
  | .setSegG _ => true
  | .setDp _ => true
  | .setDig1 _ => true
  | .setDig2 _ => true
  | .setDig3 _ => true
  | .setDig4 _ => true

end Sys2Proof
end

