-- ==== Sys2Proof/Decode.lean ====
section
/-! DEFINITION. Frame decoding, total on any bytes (R60 to R68, R71), and the encoder, written from the same opcode
map (R65). -/

namespace Sys2Proof

/-- A row of the opcode map (R65): the format of the frame (R61) and how its fields make the command. -/
inductive Form where
  /-- Format F0: OP alone. -/
  | f0 (i : Instr)
  /-- Format F1: OP, ARG. -/
  | f1 (mk : Byte → Instr)
  /-- Format FS: OP, LEN, CH[0] .. CH[LEN - 1]. -/
  | fs (mk : List Byte → Instr)

/-- What the decoder makes of the bytes at `spc` (R71): one frame and the bytes after it, a reserved OP, or a frame
whose bytes have not all arrived. -/
inductive Decoded where
  | frame (i : Instr) (rest : List Byte)
  | undefinedOpcode (op : Byte)
  | incomplete
deriving DecidableEq, Repr

/-- The complete opcode map (R65, R66). `none` is a reserved OP (R67). -/
def opcodeMap (op : Byte) : Option Form :=
  match op.toNat with
  | 0x01 => some (.fs .renderValue)
  | 0x02 => some (.f1 .renderState)
  | 0x03 => some (.f0 .renderError)
  | 0x04 => some (.f0 .clear)
  | 0x05 => some (.f1 .selectDigit)
  | 0x10 => some (.f1 .setSegA)
  | 0x11 => some (.f1 .setSegB)
  | 0x12 => some (.f1 .setSegC)
  | 0x13 => some (.f1 .setSegD)
  | 0x14 => some (.f1 .setSegE)
  | 0x15 => some (.f1 .setSegF)
  | 0x16 => some (.f1 .setSegG)
  | 0x17 => some (.f1 .setDp)
  | 0x18 => some (.f1 .setDig1)
  | 0x19 => some (.f1 .setDig2)
  | 0x1A => some (.f1 .setDig3)
  | 0x1B => some (.f1 .setDig4)
  | _ => none

/-- Whether a list has at least `n` elements, seen without counting the rest of it. -/
def hasAtLeast : Nat → List Byte → Bool
  | 0, _ => true
  | _ + 1, [] => false
  | n + 1, _ :: tail => hasAtLeast n tail

/-- The fields of a frame of the given format, taken from the bytes after OP (R61, R62). -/
def decodeFields : Form → List Byte → Decoded
  | .f0 i, tail => .frame i tail
  | .f1 _, [] => .incomplete
  | .f1 mk, arg :: rest => .frame (mk arg) rest
  | .fs _, [] => .incomplete
  | .fs mk, len :: chars =>
    if hasAtLeast len.toNat chars then .frame (mk (chars.take len.toNat)) (chars.drop len.toNat)
    else .incomplete

/-- R63's `Decode`, on the bytes that have arrived from `spc` on. A reserved OP is reported as soon as its byte is
there; a frame is reported once all its bytes are. -/
def decode : List Byte → Decoded
  | [] => .incomplete
  | op :: tail =>
    match opcodeMap op with
    | none => .undefinedOpcode op
    | some form => decodeFields form tail

/-- The OP byte of a command (R65, R66). -/
def Instr.opcode : Instr → Byte
  | .renderValue _ => 0x01#8
  | .renderState _ => 0x02#8
  | .renderError => 0x03#8
  | .clear => 0x04#8
  | .selectDigit _ => 0x05#8
  | .setSegA _ => 0x10#8
  | .setSegB _ => 0x11#8
  | .setSegC _ => 0x12#8
  | .setSegD _ => 0x13#8
  | .setSegE _ => 0x14#8
  | .setSegF _ => 0x15#8
  | .setSegG _ => 0x16#8
  | .setDp _ => 0x17#8
  | .setDig1 _ => 0x18#8
  | .setDig2 _ => 0x19#8
  | .setDig3 _ => 0x1A#8
  | .setDig4 _ => 0x1B#8

/-- The bytes of a frame after OP (R61). -/
def Instr.operands : Instr → List Byte
  | .renderValue req => BitVec.ofNat 8 req.length :: req
  | .renderState flag => [flag]
  | .renderError => []
  | .clear => []
  | .selectDigit slot => [slot]
  | .setSegA pin => [pin]
  | .setSegB pin => [pin]
  | .setSegC pin => [pin]
  | .setSegD pin => [pin]
  | .setSegE pin => [pin]
  | .setSegF pin => [pin]
  | .setSegG pin => [pin]
  | .setDp pin => [pin]
  | .setDig1 pin => [pin]
  | .setDig2 pin => [pin]
  | .setDig3 pin => [pin]
  | .setDig4 pin => [pin]

/-- The frame of a well-formed command, in stream order (R61). -/
def encode (i : Instr) : List Byte :=
  i.opcode :: i.operands

/-- `FrameLen` (R62): 1 for format F0, 2 for F1, 2 + LEN for FS. -/
def Instr.frameLen : Instr → Nat
  | .renderValue req => 2 + req.length
  | .renderState _ => 2
  | .renderError => 1
  | .clear => 1
  | .selectDigit _ => 2
  | .setSegA _ => 2
  | .setSegB _ => 2
  | .setSegC _ => 2
  | .setSegD _ => 2
  | .setSegE _ => 2
  | .setSegF _ => 2
  | .setSegG _ => 2
  | .setDp _ => 2
  | .setDig1 _ => 2
  | .setDig2 _ => 2
  | .setDig3 _ => 2
  | .setDig4 _ => 2

/-- The longest frame: OP, LEN and 255 characters (R61). -/
def maxFrameLen : Nat := 257

/-- The lowest `n` bytes of `w`, the least significant first: byte k is bits 8k+7 .. 8k. -/
def lowBytes : Nat → Nat → List Byte
  | 0, _ => []
  | n + 1, w => BitVec.ofNat 8 w :: lowBytes n (w / 256)

/-- The bytes of a table word: every bit above `nbits` is zero, and the list is as long as the longest frame. -/
def tableBytes (nbits w : Nat) : List Byte :=
  lowBytes maxFrameLen (w % 2 ^ nbits)

/-- The bytes of the first frame of `bs`: OP alone where it is reserved, nothing where the frame is incomplete. -/
def firstFrame (bs : List Byte) : List Byte :=
  match decode bs with
  | .frame i _ => bs.take i.frameLen
  | .undefinedOpcode op => [op]
  | .incomplete => []

/-- What the decoder reads from an instruction numbered as spec/opcode_table.json numbers its bits. -/
def decodeTableWord (nbits w : Nat) : Option Instr :=
  match decode (tableBytes nbits w) with
  | .frame i _ => some i
  | .undefinedOpcode _ => none
  | .incomplete => none

end Sys2Proof
end

