-- ==== Sys2Proof/Machine/Ops.lean ====
section
/-! DEFINITION. The named operations: bindings, pins as roles see them, the primitive calls of a command and their
order, `raise Fault`, completing a command, fetching a frame, and the host's act on the stream. -/

namespace Sys2Proof.Machine

/-- `bind[r]` (R11, R20). -/
def State.binding (s : State) (r : Role) : PinId := s.bind[r.num]

/-- `bind[r] <- p` (R11). -/
def State.setBinding (s : State) (r : Role) (p : PinId) : State :=
  { s with bind := s.bind.set r.num p }

/-- `pin[p]` (R11, R23). -/
def State.pin (s : State) (p : PinId) : Pin := s.gpio.pins.get p

/-- `RoleLevel(r) = pin[bind[r]].lvl` (R25). -/
def State.roleLevel (s : State) (r : Role) : Option Level := (s.pin (s.binding r)).lvl

/-- How far a command's statements came: to their end, or to a `raise Fault(code)`, with the state written so far
(R155 points 1 and 2). -/
inductive Run where
  | done (s : State)
  | raised (code : FaultCode) (s : State)
deriving DecidableEq, Repr

/-- One primitive call of the sequencer, with roles for pins (R11, R100), or a `raise` in their place. -/
inductive Action where
  /-- `GpioWrite(bind[r], v)`. -/
  | write (r : Role) (v : Level)
  /-- `Hold(SETTLE)`. -/
  | hold
  /-- `raise Fault(code)`. -/
  | raise (code : FaultCode)
deriving DecidableEq, Repr

/-- One primitive call made. The binding is read when the call is made (R47). -/
def Action.run (a : Action) (s : State) : Run :=
  match a with
  | .write r v =>
    match s.gpio.write (s.binding r) v with
    | .ok g => .done { s with gpio := g }
    | .error code => .raised code s
  | .hold => .done { s with gpio := s.gpio.hold s.config.settle }
  | .raise code => .raised code s

/-- Primitive calls made in order, up to the first fault (R11, R155). -/
def runActions : List Action → State → Run
  | [], s => .done s
  | a :: rest, s =>
    match a.run s with
    | .done s' => runActions rest s'
    | .raised code s' => .raised code s'

/-- `raise Fault(code)` in a frame whose OP is `op` (R155): the record is set, `spc` stays, and the set record halts
the block. There is no vector, no saved context and no mode. The way back is reset alone, `State.resetWith` (R156). -/
def raiseFault (code : FaultCode) (op : Byte) (s : State) : State :=
  { s with fault := some code, faultAt := some s.spc, faultOp := some op }

/-- The end of the command `i`: `spc` advances by the frame's length (R27, R63), or the fault is entered (R155). -/
def complete (i : Instr) : Run → Host.Outcome State Fault Refusal
  | .done s => .next { s with spc := s.spc + i.frameLen }
  | .raised code s => .next (raiseFault code i.opcode s)

/-- The decoder's reading of the bytes that have arrived from `spc` on (R63). -/
def fetch (s : State) : Decoded := decode (s.stream.drop s.spc)

/-- Bytes stored in the stream from offset `at_` on, over what stands there; a gap before them is filled with zero
bytes. It is the loading of a program from outside; the block itself never writes the stream (R43). -/
def putBytes (stream : List Byte) (at_ : Nat) (bs : List Byte) : List Byte :=
  stream.take at_ ++ List.replicate (at_ - stream.length) 0x00#8 ++ bs ++ stream.drop (at_ + bs.length)

/-- The host appends bytes to the stream, between steps (R43). -/
def State.arrive (bs : List Byte) (s : State) : State :=
  { s with stream := s.stream ++ bs }

end Sys2Proof.Machine
end

