-- ==== Sys2Proof/Machine/PinBinding.lean ====
section
/-! DEFINITION. The 12 pin-role setters (R130 to R143). -/

namespace Sys2Proof.Machine

/-- `SetRole(r, p)`: configure the pin, then bind the role to it (R130). No level is driven. -/
def setRole (r : Role) (p : PinId) (s : State) : Run :=
  match s.gpio.configure (s.config.pinValid p) p with
  | .ok g => .done (State.setBinding { s with gpio := g } r p)
  | .error code => .raised code s

/-- SET_SEG_A (R132). -/
def execSetSegA (pin : Byte) (s : State) : Host.Outcome State Fault Refusal :=
  complete (.setSegA pin) (setRole .segA (pinOf pin) s)

/-- SET_SEG_B (R133). -/
def execSetSegB (pin : Byte) (s : State) : Host.Outcome State Fault Refusal :=
  complete (.setSegB pin) (setRole .segB (pinOf pin) s)

/-- SET_SEG_C (R134). -/
def execSetSegC (pin : Byte) (s : State) : Host.Outcome State Fault Refusal :=
  complete (.setSegC pin) (setRole .segC (pinOf pin) s)

/-- SET_SEG_D (R135). -/
def execSetSegD (pin : Byte) (s : State) : Host.Outcome State Fault Refusal :=
  complete (.setSegD pin) (setRole .segD (pinOf pin) s)

/-- SET_SEG_E (R136). -/
def execSetSegE (pin : Byte) (s : State) : Host.Outcome State Fault Refusal :=
  complete (.setSegE pin) (setRole .segE (pinOf pin) s)

/-- SET_SEG_F (R137). -/
def execSetSegF (pin : Byte) (s : State) : Host.Outcome State Fault Refusal :=
  complete (.setSegF pin) (setRole .segF (pinOf pin) s)

/-- SET_SEG_G (R138). -/
def execSetSegG (pin : Byte) (s : State) : Host.Outcome State Fault Refusal :=
  complete (.setSegG pin) (setRole .segG (pinOf pin) s)

/-- SET_DP (R139). -/
def execSetDp (pin : Byte) (s : State) : Host.Outcome State Fault Refusal :=
  complete (.setDp pin) (setRole .dp (pinOf pin) s)

/-- SET_DIG1 (R140). -/
def execSetDig1 (pin : Byte) (s : State) : Host.Outcome State Fault Refusal :=
  complete (.setDig1 pin) (setRole .dig1 (pinOf pin) s)

/-- SET_DIG2 (R141). -/
def execSetDig2 (pin : Byte) (s : State) : Host.Outcome State Fault Refusal :=
  complete (.setDig2 pin) (setRole .dig2 (pinOf pin) s)

/-- SET_DIG3 (R142). -/
def execSetDig3 (pin : Byte) (s : State) : Host.Outcome State Fault Refusal :=
  complete (.setDig3 pin) (setRole .dig3 (pinOf pin) s)

/-- SET_DIG4 (R143). -/
def execSetDig4 (pin : Byte) (s : State) : Host.Outcome State Fault Refusal :=
  complete (.setDig4 pin) (setRole .dig4 (pinOf pin) s)

end Sys2Proof.Machine
end

