-- ==== Sys2Proof/Machine/Flags.lean ====
section
/-! DEFINITION. The block has no condition codes (R30); its one flag-like value is the Validator's verdict, computed
here (R80) and used by RENDER_VALUE alone. -/

namespace Sys2Proof.Machine

/-- The Validator's scan with its transient values `nd`, `np` and `prevDot` (R29, R80). -/
def validScan (nd np : Nat) (prevDot : Bool) : List Byte → Bool
  | [] => decide (nd ≤ 4) && decide (np ≤ 4)
  | c :: rest =>
    if isDigit c then validScan (nd + 1) np false rest
    else if isPoint c then
      if prevDot then false else validScan nd (np + 1) true rest
    else false

/-- `Valid(req)` (R80). -/
def valid (req : List Byte) : Bool := validScan 0 0 false req

end Sys2Proof.Machine
end

