-- ==== Sys2Proof/Machine/Glyph.lean ====
section
/-! DEFINITION. The glyph LUT and the segment drive (R90 to R94). -/

namespace Sys2Proof.Machine

/-- The key number of the glyph 'E' (R90). -/
def keyE : Nat := 10

/-- The key number of the glyph 'r' (R90). -/
def keyR : Nat := 11

/-- The key number of the glyph 'n' (R90). -/
def keyN : Nat := 12

/-- The key number of the glyph 'F' (R90). -/
def keyF : Nat := 13

/-- The key number of the glyph 'O' (R90). -/
def keyO : Nat := 14

/-- `LutRead(k)` (R92). A key that is none of the 15 raises a fault; no command asks for one (R154, log 23). -/
def lutRead (c : Config) (k : Nat) : Except FaultCode Pattern :=
  if h : k < 15 then .ok c.glyphLut[k] else .error .undefinedGlyphKey

/-- `DriveSegments(g)`: all seven lines, A to G (R94). -/
def driveSegments (c : Config) (g : Pattern) : List Action :=
  segLines.map fun line => .write line.2 (if g.getLsbD line.1 then c.segLit else c.segUnlit)

end Sys2Proof.Machine
end

