-- ==== Sys2Proof/Machine/Sequencer.lean ====
section
/-! DEFINITION. The sequencer: the shared primitives (R100 to R109) as lists of primitive calls in the order the rules
make them, and the five operation commands (R110 to R121). -/

namespace Sys2Proof.Machine

/-- `SelectDigit(k)`: for `k` in 1..4 the three other enables inactive, ascending, then line `k` active (R102); no call
for any other `k` (R103). -/
def selectDigit (c : Config) (k : Int) : List Action :=
  if 1 ≤ k ∧ k ≤ 4 then
    ((digLines.filter fun line => line.1 ≠ k).map fun line => .write line.2 c.enInactive) ++
    ((digLines.filter fun line => line.1 = k).map fun line => .write line.2 c.enActive)
  else []

/-- The write of the point line, lit or unlit (R104). -/
def drivePoint (c : Config) (lit : Bool) : List Action :=
  [.write .dp (if lit then c.dpLit else c.dpUnlit)]

/-- `DriveSegments(LutRead(key))` (R92, R94): the fault of an undefined key comes where the read stands. -/
def driveGlyph (c : Config) (key : Nat) : List Action :=
  match lutRead c key with
  | .ok g => driveSegments c g
  | .error code => [.raise code]

/-- `DrawGlyph(k, key, dpLit)`, one slot-draw (R104). -/
def drawGlyph (c : Config) (k : Int) (key : Nat) (lit : Bool) : List Action :=
  selectDigit c k ++ drivePoint c lit ++ driveGlyph c key ++ [.hold]

/-- `DrawPoint()` with the slot counter `s`: its calls, and the counter after it (R106). -/
def drawPoint (c : Config) (s : Int) : List Action × Int :=
  match c.dpSlotPolicy with
  | .netZero =>
    let s' := s - 1
    (selectDigit c s' ++ drivePoint c true ++ [.hold], s' + 1)
  | .drift => (selectDigit c (s - 1) ++ drivePoint c true ++ [.hold], s + 1)

/-- `RenderDigits(req)` from the slot counter `s` on (R111). The counter is a mathematical integer (R101). -/
def renderDigits (c : Config) (s : Int) : List Byte → List Action
  | [] => []
  | ch :: rest =>
    if isDigit ch then drawGlyph c s (digitKey ch) false ++ renderDigits c (s + 1) rest
    else (drawPoint c s).1 ++ renderDigits c (drawPoint c s).2 rest

/-- `RenderErrorSeq()`, "Err" (R109). -/
def renderErrorSeq (c : Config) : List Action :=
  drawGlyph c 1 keyE false ++ drawGlyph c 2 keyR false ++ drawGlyph c 3 keyR false

/-- RENDER_STATE's calls once its FLAG is read: "On" or "OFF" (R113). -/
def renderStateSeq (c : Config) (flag : Bool) : List Action :=
  drawGlyph c 1 keyO true ++
  if flag then drawGlyph c 2 keyN false
  else drawGlyph c 2 keyF false ++ drawGlyph c 3 keyF false

/-- CLEAR's four writes (R118). -/
def clearSeq (c : Config) : List Action :=
  digLines.map fun line => .write line.2 c.enInactive

/-- RENDER_VALUE (R110). A request that no frame can carry is refused (I19; log 15). -/
def execRenderValue (req : List Byte) (s : State) : Host.Outcome State Fault Refusal :=
  if req.length ≤ 255 then
    complete (.renderValue req)
      (runActions (if valid req then renderDigits s.config 1 req else renderErrorSeq s.config) s)
  else .refused .requestTooLong

/-- RENDER_STATE (R113). A reserved FLAG faults before any event (R153). -/
def execRenderState (flag : Byte) (s : State) : Host.Outcome State Fault Refusal :=
  complete (.renderState flag)
    (match flagOf flag with
    | some b => runActions (renderStateSeq s.config b) s
    | none => .raised .reservedOperand s)

/-- RENDER_ERROR (R116). -/
def execRenderError (s : State) : Host.Outcome State Fault Refusal :=
  complete .renderError (runActions (renderErrorSeq s.config) s)

/-- CLEAR (R118). -/
def execClear (s : State) : Host.Outcome State Fault Refusal :=
  complete .clear (runActions (clearSeq s.config) s)

/-- SELECT_DIGIT (R120). -/
def execSelectDigit (slot : Byte) (s : State) : Host.Outcome State Fault Refusal :=
  complete (.selectDigit slot) (runActions (selectDigit s.config (slotOf slot)) s)

end Sys2Proof.Machine
end

