-- ==== Sys2Proof/Machine/Dispatch.lean ====
section
/-! DEFINITION. One arm per command (R65). -/

namespace Sys2Proof.Machine

def exec (i : Instr) (s : State) : Host.Outcome State Fault Refusal :=
  match i with
  | .renderValue req => Sys2Proof.Machine.execRenderValue req s
  | .renderState flag => Sys2Proof.Machine.execRenderState flag s
  | .renderError => Sys2Proof.Machine.execRenderError s
  | .clear => Sys2Proof.Machine.execClear s
  | .selectDigit slot => Sys2Proof.Machine.execSelectDigit slot s
  | .setSegA pin => Sys2Proof.Machine.execSetSegA pin s
  | .setSegB pin => Sys2Proof.Machine.execSetSegB pin s
  | .setSegC pin => Sys2Proof.Machine.execSetSegC pin s
  | .setSegD pin => Sys2Proof.Machine.execSetSegD pin s
  | .setSegE pin => Sys2Proof.Machine.execSetSegE pin s
  | .setSegF pin => Sys2Proof.Machine.execSetSegF pin s
  | .setSegG pin => Sys2Proof.Machine.execSetSegG pin s
  | .setDp pin => Sys2Proof.Machine.execSetDp pin s
  | .setDig1 pin => Sys2Proof.Machine.execSetDig1 pin s
  | .setDig2 pin => Sys2Proof.Machine.execSetDig2 pin s
  | .setDig3 pin => Sys2Proof.Machine.execSetDig3 pin s
  | .setDig4 pin => Sys2Proof.Machine.execSetDig4 pin s

end Sys2Proof.Machine
end

