-- ==== Sys2Proof/Machine/Step.lean ====
section
/-! DEFINITION. One step of the block: one complete command frame (R6, R63), and the storing of a frame where the next
step fetches it. -/

namespace Sys2Proof.Machine

/-- One step. A halted block has none (R31), nor has a block whose next frame has not wholly arrived (R63). A reserved
OP enters its fault (R152); any other frame runs its command. -/
def step (s : State) : Host.Outcome State Fault Refusal :=
  match s.fault with
  | some code => .fault (.halted code)
  | none =>
    match fetch s with
    | .incomplete => .fault .awaitingFrame
    | .undefinedOpcode op => .next (raiseFault .undefinedOpcode op s)
    | .frame i _ => exec i s

/-- The frame of a table word stored at `spc`, as if the host had sent it (log 11). The decoder runs only when the fault
record is none (R63), so the record is none after it. -/
def State.withFetchWord (s : State) (nbits w : Nat) : State :=
  { s with
    stream := putBytes s.stream s.spc (firstFrame (tableBytes nbits w))
    fault := none
    faultAt := none
    faultOp := none }

end Sys2Proof.Machine
end

