-- ==== Sys2Proof/Safety.lean ====
section
/-! DEFINITION. The terms claims are stated in: the predicates of R25, R26 and R180, the pin state as a function of the
trace (R34, R47), and the event sequences the rules give, written out with the pins bound now. -/

namespace Sys2Proof.Machine

/-- Every bound pin is configured (R26). -/
abbrev BoundConfigured (s : State) : Prop :=
  ∀ r ∈ Role.all, (s.pin (s.binding r)).cfg = true

/-- The slots of `digLines` whose enable line is active when the pins are `ps` and the bindings those of `s`. -/
def activeSlotsIn (s : State) (ps : Pins) : List Int :=
  (digLines.filter fun line => (Pins.get ps (s.binding line.2)).lvl = some s.config.enActive).map fun line => line.1

/-- `ActiveSlots` (R25). -/
def State.activeSlots (s : State) : List Int := activeSlotsIn s s.gpio.pins

/-- What one event does to the pins (R44, R45, R46): the reading of the trace that R47 gives. -/
def Event.effect : Event → Pins → Pins
  | .cfg p, ps => ps.put p ⟨true, none⟩
  | .w p v, ps => ps.put p { ps.get p with lvl := some v }
  | .h _, ps => ps

/-- "The pin state at an instant is the state after every event before it" (R47). -/
def replay (evs : List Event) (ps : Pins) : Pins := evs.foldl (fun ps e => e.effect ps) ps

/-- "Pin levels are a function of the trace" (R34), from the pins nothing has touched (R171). -/
abbrev TraceExplainsPins (s : State) : Prop := s.gpio.pins = replay s.gpio.trace []

/-- `faultAt` and `faultOp` say something only while `fault` is not none (R31). -/
abbrev FaultRecordCoherent (s : State) : Prop :=
  s.fault = none → s.faultAt = none ∧ s.faultOp = none

/-- The parameters meet what the host must provide (R9, R96, R174): valid default pins, a nonzero settle time, and ten
digit patterns that are pairwise different; and the two levels the source fixes are as it fixes them (R8). -/
abbrev Config.wf (c : Config) : Prop :=
  (∀ r ∈ Role.all, c.pinValid (c.defaultPin r) = true) ∧ 0 < c.settle ∧ (c.glyphLut.toList.take 10).Nodup ∧
  c.dpLit = .low ∧ c.enActive = .high

/-- Every bound pin, and every pin the block knows anything of, is in the pin space (R20, R40). -/
abbrev InPinSpace (s : State) : Prop :=
  (∀ r ∈ Role.all, s.config.hasPin (s.binding r) = true) ∧ ∀ e ∈ s.gpio.pins, s.config.hasPin e.1 = true

/-- Premise (a) of R180: the four enable lines have known levels. -/
abbrev EnablesKnown (s : State) : Prop := ∀ line ∈ digLines, s.roleLevel line.2 ≠ none

/-- Premise (c) of R180: the four DIG roles are bound to four different pins, and no segment or DP role to any of
them. -/
abbrev EnablesUnaliased (s : State) : Prop :=
  ∀ line ∈ digLines, ∀ r ∈ Role.all, r ≠ line.2 → s.binding r ≠ s.binding line.2

/-- The premises (a), (b) and (c) of R180. Premise (d), that nothing but the block drives those pins, is the host's duty
(R181): the model has no other driver (log 13). -/
abbrev MuxPremises (s : State) : Prop :=
  EnablesKnown s ∧ s.activeSlots.length ≤ 1 ∧ EnablesUnaliased s

/-- The setter of a role (R21), with its operand byte. -/
def setter : Role → Byte → Instr
  | .segA => .setSegA
  | .segB => .setSegB
  | .segC => .setSegC
  | .segD => .setSegD
  | .segE => .setSegE
  | .segF => .setSegF
  | .segG => .setSegG
  | .dp => .setDp
  | .dig1 => .setDig1
  | .dig2 => .setDig2
  | .dig3 => .setDig3
  | .dig4 => .setDig4

/-- The event `W(r, v)` with the binding of `r` in `s` (R47). -/
def State.wEvent (s : State) (r : Role) (v : Level) : Event := .w (s.binding r) v

/-- The event that deactivates an enable line (R8, R102). -/
def State.offEvent (s : State) (r : Role) : Event := s.wEvent r s.config.enInactive

/-- The event that activates an enable line (R8, R102). -/
def State.onEvent (s : State) (r : Role) : Event := s.wEvent r s.config.enActive

/-- The events of `SelectDigit(k)` (R102, R103). -/
def selectEvents (s : State) (k : Int) : List Event :=
  if k = 1 then [s.offEvent .dig2, s.offEvent .dig3, s.offEvent .dig4, s.onEvent .dig1]
  else if k = 2 then [s.offEvent .dig1, s.offEvent .dig3, s.offEvent .dig4, s.onEvent .dig2]
  else if k = 3 then [s.offEvent .dig1, s.offEvent .dig2, s.offEvent .dig4, s.onEvent .dig3]
  else if k = 4 then [s.offEvent .dig1, s.offEvent .dig2, s.offEvent .dig3, s.onEvent .dig4]
  else []

/-- The level that shows segment bit `j` of `g` (R94). -/
def State.segLevel (s : State) (g : Pattern) (j : Nat) : Level :=
  if g.getLsbD j then s.config.segLit else s.config.segLit.flip

/-- The seven events of `DriveSegments(g)` (R94). -/
def segmentEvents (s : State) (g : Pattern) : List Event :=
  [s.wEvent .segA (s.segLevel g 0), s.wEvent .segB (s.segLevel g 1), s.wEvent .segC (s.segLevel g 2),
   s.wEvent .segD (s.segLevel g 3), s.wEvent .segE (s.segLevel g 4), s.wEvent .segF (s.segLevel g 5),
   s.wEvent .segG (s.segLevel g 6)]

/-- The events of one slot-draw with pattern `g` and the point at level `point` (R104). -/
def slotDrawEvents (s : State) (k : Int) (g : Pattern) (point : Level) : List Event :=
  selectEvents s k ++ [s.wEvent .dp point] ++ segmentEvents s g ++ [.h s.config.settle]

/-- The events of one point attached to slot `k` (R106). -/
def pointEvents (s : State) (k : Int) : List Event :=
  selectEvents s k ++ [s.wEvent .dp s.config.dpLit, .h s.config.settle]

/-- "Err" (R109): 'E' is key 10 and 'r' is key 11 (R90). -/
def errEvents (s : State) : List Event :=
  slotDrawEvents s 1 s.config.glyphLut[10] s.config.dpUnlit ++ slotDrawEvents s 2 s.config.glyphLut[11] s.config.dpUnlit ++
  slotDrawEvents s 3 s.config.glyphLut[11] s.config.dpUnlit

/-- "On" (R113): 'O' is key 14 and 'n' is key 12 (R90). -/
def onEvents (s : State) : List Event :=
  slotDrawEvents s 1 s.config.glyphLut[14] s.config.dpLit ++ slotDrawEvents s 2 s.config.glyphLut[12] s.config.dpUnlit

/-- "OFF" (R113): 'O' is key 14 and 'F' is key 13 (R90). -/
def offEvents (s : State) : List Event :=
  slotDrawEvents s 1 s.config.glyphLut[14] s.config.dpLit ++ slotDrawEvents s 2 s.config.glyphLut[13] s.config.dpUnlit ++
  slotDrawEvents s 3 s.config.glyphLut[13] s.config.dpUnlit

/-- CLEAR's events (R118). -/
def clearEvents (s : State) : List Event :=
  [s.offEvent .dig1, s.offEvent .dig2, s.offEvent .dig3, s.offEvent .dig4]

/-- The digits of `req` before index `i`. -/
def digitsBefore (req : List Byte) (i : Nat) : Nat := (req.take i).countP isDigit

/-- The slot number R112 gives the character at index `i`, less one for a digit: the digits before it under NET_ZERO,
the characters before it under DRIFT. -/
def slotBase (s : State) (req : List Byte) (i : Nat) : Nat :=
  match s.config.dpSlotPolicy with
  | .netZero => digitsBefore req i
  | .drift => i

/-- The events of the character `c` at index `i` of the valid request `req` (R111, R112). -/
def charEvents (s : State) (req : List Byte) (c : Byte) (i : Nat) : List Event :=
  if isDigit c then
    slotDrawEvents s (1 + slotBase s req i) ((s.config.glyphLut[c.toNat - 0x30]?).getD 0#7) s.config.dpUnlit
  else pointEvents s (slotBase s req i)

/-- The events of a valid request, character by character (R111, R112). -/
def requestEvents (s : State) (req : List Byte) : List Event :=
  req.zipIdx.flatMap fun ci => charEvents s req ci.1 ci.2

/-- `s` after a command of `len` bytes that emitted `evs`: the trace longer by them, the pins as they leave them, `spc`
advanced, nothing else changed. -/
def State.emitted (s : State) (evs : List Event) (len : Nat) : State :=
  { s with gpio := ⟨replay evs s.gpio.pins, s.gpio.trace ++ evs⟩, spc := s.spc + len }

end Sys2Proof.Machine
end

