-- ==== Sys2Proof/Certificates/Slice0/Obligations.lean ====
section
/-! DEFINITION. The statements about the model. Each docstring names the rule of spec/ it formalises, or says that it
is derived and from what, and names the spec's own decisions D<n> (92_eei_decisions.md) and the log entries it rests
on. Levels are named by the parameters of R8, of which the source fixes two: an active enable line is HIGH, an inactive
one LOW, the point is lit at LOW and unlit at HIGH (`Config.wf`; log 1). -/

open Sys2Proof Sys2Proof.Machine

/-! Reset. -/

/-- Derived from R35 and R171 (the spec's decisions D1, D6, D20, D21): after reset with valid default pins every piece
of state has its value. The layout is whatever parameter the block was built with; the stream is what the host has
given. -/
def Obligations.ResetLeavesSpecValues : Prop :=
  ∀ (c : Config) (bs : List Byte), (∀ r, c.pinValid (c.defaultPin r) = true) →
    let s := State.resetWith c bs
    (∀ r, s.binding r = c.defaultPin r) ∧
    (∀ p, (∃ r, s.binding r = p) → s.pin p = ⟨true, none⟩) ∧
    (∀ p, (¬ ∃ r, s.binding r = p) → s.pin p = ⟨false, none⟩) ∧
    s.spc = 0 ∧ s.fault = none ∧ s.faultAt = none ∧ s.faultOp = none ∧
    s.config.glyphLut = c.glyphLut ∧
    s.gpio.trace =
      [.cfg (c.defaultPin .segA), .cfg (c.defaultPin .segB), .cfg (c.defaultPin .segC), .cfg (c.defaultPin .segD),
       .cfg (c.defaultPin .segE), .cfg (c.defaultPin .segF), .cfg (c.defaultPin .segG), .cfg (c.defaultPin .dp),
       .cfg (c.defaultPin .dig1), .cfg (c.defaultPin .dig2), .cfg (c.defaultPin .dig3), .cfg (c.defaultPin .dig4)]

/-- Derived from R155, R157 and R171: the first default pin in role order that is not valid ends reset with INVALID_PIN,
after the configure events of the roles before it, and the block is halted from reset. -/
def Obligations.ResetHaltsAtFirstInvalidDefaultPin : Prop :=
  ∀ (c : Config) (bs : List Byte) (before after : List Role) (r : Role), Role.all = before ++ r :: after →
    (∀ q ∈ before, c.pinValid (c.defaultPin q) = true) → c.pinValid (c.defaultPin r) = false →
    let s := State.resetWith c bs
    s.fault = some .invalidPin ∧ s.faultAt = none ∧ s.faultOp = none ∧ s.spc = 0 ∧
    (∀ q, s.binding q = c.defaultPin q) ∧
    s.gpio.trace = before.map (fun q => Event.cfg (c.defaultPin q)) ∧
    step s = .fault (.halted .invalidPin)

/-- The invariants hold at `State.reset`. `State.reset` has the default parameters, whose layout and settle time are the
model's choice (log 2, log 3). -/
def Obligations.ResetMeetsTheInvariants : Prop :=
  BoundConfigured State.reset ∧ InPinSpace State.reset ∧ State.reset.gpio.pins.wf ∧ TraceExplainsPins State.reset ∧
  FaultRecordCoherent State.reset ∧ Config.wf State.reset.config

/-! Decoding and the step. -/

/-- Derived from R63 (decisions D6, D7): when the bytes at `spc` begin with the frame of a well-formed command, the step
is that command's meaning. Nothing stands around `exec` in `step`: the meaning itself advances `spc`. -/
def Obligations.StepRunsDecodedCommand : Prop :=
  ∀ (s : State) (i : Instr) (rest : List Byte), s.fault = none → i.wellFormed = true →
    s.stream.drop s.spc = encode i ++ rest → step s = exec i s

/-- Derived from R62 and R63: while only some of a frame's bytes have arrived the block has no step. -/
def Obligations.PartialFrameHasNoStep : Prop :=
  ∀ (s : State) (i : Instr), s.fault = none → i.wellFormed = true →
    s.stream.drop s.spc <+: encode i → s.stream.drop s.spc ≠ encode i → step s = .fault .awaitingFrame

/-- R152 with the reserved values of R67 (decision D6): the byte at `spc` alone decides, no event is emitted, and
nothing changes but the fault record (R155). -/
def Obligations.ReservedOpcodeFaults : Prop :=
  ∀ (s : State) (op : Byte) (rest : List Byte), s.fault = none → s.stream.drop s.spc = op :: rest →
    (op = 0x00#8 ∨ (0x06#8 ≤ op ∧ op ≤ 0x0F#8) ∨ 0x1C#8 ≤ op) →
    step s = .next { s with fault := some .undefinedOpcode, faultAt := some s.spc, faultOp := some op }

/-- Derived from R31 and R155: a halted block executes no command. -/
def Obligations.HaltedBlockHasNoStep : Prop :=
  ∀ (s : State) (code : FaultCode), s.fault = some code → step s = .fault (.halted code)

/-- Derived from R61, R62 and R65 (decision D2): decoding the frame of a well-formed command gives the command back,
whatever bytes follow. -/
def Obligations.DecodeOfEncodeIsTheCommand : Prop :=
  ∀ (i : Instr) (rest : List Byte), i.wellFormed = true → decode (encode i ++ rest) = .frame i rest

/-- Derived from R61, R62, R65 and R71 (decision D2): whatever the decoder reads as a frame is the encoding of the
command it reads, and that command is well formed. -/
def Obligations.DecodedFrameIsTheEncoding : Prop :=
  ∀ (bs : List Byte) (i : Instr) (rest : List Byte), decode bs = .frame i rest →
    i.wellFormed = true ∧ bs = encode i ++ rest

/-- Derived from R61 and R65 (decision D2): words written out from them, one or more for each family, and the two ways a
frame is not there. -/
def Obligations.WordsOfEachFamilyDecode : Prop :=
  decode [0x01#8, 0x04#8, 0x31#8, 0x32#8, 0x2E#8, 0x35#8, 0x04#8] =
    .frame (.renderValue [0x31#8, 0x32#8, 0x2E#8, 0x35#8]) [0x04#8] ∧
  decode [0x02#8, 0x01#8] = .frame (.renderState 0x01#8) [] ∧
  decode [0x03#8] = .frame .renderError [] ∧
  decode [0x04#8, 0x20#8] = .frame .clear [0x20#8] ∧
  decode [0x05#8, 0xFF#8] = .frame (.selectDigit 0xFF#8) [] ∧
  decode [0x10#8, 0x14#8] = .frame (.setSegA 0x14#8) [] ∧
  decode [0x17#8, 0x1B#8] = .frame (.setDp 0x1B#8) [] ∧
  decode [0x1B#8, 0x1F#8] = .frame (.setDig4 0x1F#8) [] ∧
  decode [0x1C#8] = .undefinedOpcode 0x1C#8 ∧
  decode [0x01#8, 0x03#8, 0x31#8] = .incomplete

/-- R66 (decisions D2, D9): the low nibble of a setter's OP is the role number; 0xC to 0xF are reserved. -/
def Obligations.SetterOpcodeNamesTheRole : Prop :=
  (∀ (r : Role) (p : Byte) (rest : List Byte),
    decode (BitVec.ofNat 8 (0x10 + r.num.val) :: p :: rest) = .frame (setter r p) rest) ∧
  ∀ (n : Nat) (rest : List Byte), 0xC ≤ n → n ≤ 0xF →
    decode (BitVec.ofNat 8 (0x10 + n) :: rest) = .undefinedOpcode (BitVec.ofNat 8 (0x10 + n))

/-- Derived from R43 and R63: bytes that arrive later change neither what a step does nor whether it is there. -/
def Obligations.LaterBytesDoNotChangeAStep : Prop :=
  ∀ (s t : State) (bs : List Byte), step s = .next t → step (s.arrive bs) = .next (t.arrive bs)

/-! The Validator. -/

/-- R80, R82 and R83: a request passes exactly when every character is a digit or a point, no two points are adjacent,
and neither count exceeds 4. The byte values are those of R80, the ASCII codes (R81, decision D3, log 19). -/
def Obligations.ValidatorAcceptsExactly : Prop :=
  ∀ req : List Byte, valid req = true ↔
    (∀ c ∈ req, (0x30#8 ≤ c ∧ c ≤ 0x39#8) ∨ c = 0x2E#8) ∧
    (∀ i, ¬ (req[i]? = some 0x2E#8 ∧ req[i + 1]? = some 0x2E#8)) ∧
    (req.countP fun c => decide (0x30#8 ≤ c ∧ c ≤ 0x39#8)) ≤ 4 ∧ req.count 0x2E#8 ≤ 4

/-- Derived (R86 (d)): every request of more than 8 characters fails. -/
def Obligations.LongRequestsFail : Prop :=
  ∀ req : List Byte, 8 < req.length → valid req = false

/-- R84 (decision D27): the empty request passes, emits no event and leaves every pin as it was. -/
def Obligations.EmptyRequestDrawsNothing : Prop :=
  valid [] = true ∧ ∀ s : State, exec (.renderValue []) s = .next { s with spc := s.spc + 2 }

/-! The glyph LUT and the sequencer's primitives. -/

/-- R92 (decision D28): one of the 15 keys reads its pattern, any other key faults. -/
def Obligations.LutReadsItsKeysOnly : Prop :=
  (∀ (c : Config) (k : Fin 15), lutRead c k = .ok c.glyphLut[k]) ∧
  ∀ (c : Config) (k : Nat), 15 ≤ k → lutRead c k = .error .undefinedGlyphKey

/-- R93 (decision D3): the key of the digit character n is key number n. -/
def Obligations.DigitKeyOfDigitCharacter : Prop :=
  ∀ n : Fin 10, digitKey (BitVec.ofNat 8 (0x30 + n.val)) = n.val

/-- Derived from R91 and R96 (decision D11); the table is the default one, taken from general knowledge (log 6): its
rows by lit segments, and its ten digit rows pairwise different. -/
def Obligations.DefaultGlyphsHaveTheirSegments : Prop :=
  (defaultGlyphLut.toList.map fun g => (List.range 7).filter fun j => g.getLsbD j) =
    [[0, 1, 2, 3, 4, 5], [1, 2], [0, 1, 3, 4, 6], [0, 1, 2, 3, 6], [1, 2, 5, 6], [0, 2, 3, 5, 6], [0, 2, 3, 4, 5, 6],
     [0, 1, 2], [0, 1, 2, 3, 4, 5, 6], [0, 1, 2, 3, 5, 6], [0, 3, 4, 5, 6], [4, 6], [2, 4, 6], [0, 4, 5, 6],
     [0, 1, 2, 3, 4, 5]] ∧
  (defaultGlyphLut.toList.take 10).Nodup

/-- Derived from R94: seven writes, A to G, each at the level its own bit decides. The order is the spec's decision D15,
the default polarity its decision D12. -/
def Obligations.SegmentDriveWritesSevenLines : Prop :=
  ∀ (s : State) (g : Pattern), BoundConfigured s →
    runActions (driveSegments s.config g) s =
      .done { s with gpio := ⟨replay (segmentEvents s g) s.gpio.pins, s.gpio.trace ++ segmentEvents s g⟩ }

/-- Derived from R102: the three other enables inactive in ascending order, then the slot's active, four
events. The order is the spec's decision D14. -/
def Obligations.SelectDeactivatesThenActivates : Prop :=
  ∀ (s : State) (k : Int), BoundConfigured s → 1 ≤ k → k ≤ 4 →
    runActions (selectDigit s.config k) s =
      .done { s with gpio := ⟨replay (selectEvents s k) s.gpio.pins, s.gpio.trace ++ selectEvents s k⟩ } ∧
    (selectEvents s k).length = 4

/-- R103: outside 1..4 no event and no change of state. -/
def Obligations.SelectOutsideOneToFourDoesNothing : Prop :=
  ∀ (s : State) (k : Int), k < 1 ∨ 4 < k → runActions (selectDigit s.config k) s = .done s

/-- Derived from R104, R102 and R94: select, point, seven segments, hold; 13 events in a slot 1..4 and 9 outside. The
order of the writes inside the select and inside the segment drive is the spec's own choice (decisions D14, D15; log
20). -/
def Obligations.SlotDrawSelectsDrivesHolds : Prop :=
  ∀ (s : State) (k : Int) (key : Fin 15) (lit : Bool), BoundConfigured s →
    let evs := selectEvents s k ++ [s.wEvent .dp (if lit then s.config.dpLit else s.config.dpUnlit)] ++
      segmentEvents s s.config.glyphLut[key] ++ [.h s.config.settle]
    runActions (drawGlyph s.config k key lit) s =
      .done { s with gpio := ⟨replay evs s.gpio.pins, s.gpio.trace ++ evs⟩ } ∧
    evs.length = if 1 ≤ k ∧ k ≤ 4 then 13 else 9

/-- Derived from R106: under either policy the slot before the counter is selected, the point driven lit, and the
block holds; the counter stays under NET_ZERO and advances under DRIFT. The hold is the spec's decision D17, the policy
a parameter (D18). -/
def Obligations.PointAttachesToThePreviousSlot : Prop :=
  ∀ (s : State) (k : Int), BoundConfigured s →
    let evs := selectEvents s (k - 1) ++ [s.wEvent .dp s.config.dpLit, .h s.config.settle]
    runActions (drawPoint s.config k).1 s =
      .done { s with gpio := ⟨replay evs s.gpio.pins, s.gpio.trace ++ evs⟩ } ∧
    (drawPoint s.config k).2 =
      match s.config.dpSlotPolicy with
      | .netZero => k
      | .drift => k + 1

/-! The GPIO driver. -/

/-- Derived from R44 (decisions D8, D21): a valid pin becomes an output of unknown level, with one event; an invalid pin
faults; no other pin changes. -/
def Obligations.ConfigureMakesAnOutputOfUnknownLevel : Prop :=
  (∀ (p : PinId) (g : Gpio), ∃ g', g.configure true p = .ok g' ∧ g'.trace = g.trace ++ [.cfg p] ∧
    g'.pins.get p = ⟨true, none⟩ ∧ ∀ q, q ≠ p → g'.pins.get q = g.pins.get q) ∧
  ∀ (p : PinId) (g : Gpio), g.configure false p = .error .invalidPin

/-- Derived from R45 (decisions D13, D22, D29, D35; log 13, log 14): a write to a configured pin sets its level, with
one event; a write to a pin that is not configured faults; no other pin changes. The last write wins, since the level is
the written one whatever it was. -/
def Obligations.WriteSetsTheLevelOfAConfiguredPin : Prop :=
  (∀ (p : PinId) (v : Level) (g : Gpio), (g.pins.get p).cfg = true →
    ∃ g', g.write p v = .ok g' ∧ g'.trace = g.trace ++ [.w p v] ∧ g'.pins.get p = ⟨true, some v⟩ ∧
      ∀ q, q ≠ p → g'.pins.get q = g.pins.get q) ∧
  ∀ (p : PinId) (v : Level) (g : Gpio), (g.pins.get p).cfg = false → g.write p v = .error .unconfiguredPinWrite

/-- Derived from R46 (decisions D19, D31; log 16): a hold is one event and changes no pin. -/
def Obligations.HoldOnlyRecordsItself : Prop :=
  ∀ (n : Nat) (g : Gpio), (g.hold n).pins = g.pins ∧ (g.hold n).trace = g.trace ++ [.h n]

/-! The commands. -/

/-- Derived from R109 and R116, the command RENDER_ERROR: "Err" in slots 1 to 3, 39 events, nothing else changed; slot 4
is never activated when no other role shares a DIG pin. The unlit points are the spec's decision D16. -/
def Obligations.RenderErrorDrawsErr : Prop :=
  ∀ s : State, BoundConfigured s →
    exec .renderError s = .next (s.emitted (errEvents s) 1) ∧ (errEvents s).length = 39 ∧
    (EnablesUnaliased s → s.onEvent .dig4 ∉ errEvents s)

/-- Derived from R113 (decision D4 for the FLAG values, D16 for the unlit points): FLAG 0x01 draws "On", FLAG 0x00 draws
"OFF", every other FLAG faults before any event. -/
def Obligations.RenderStateDrawsOnOrOff : Prop :=
  ∀ (s : State) (flag : Byte),
    (BoundConfigured s → flag = 0x01#8 → exec (.renderState flag) s = .next (s.emitted (onEvents s) 2)) ∧
    (BoundConfigured s → flag = 0x00#8 → exec (.renderState flag) s = .next (s.emitted (offEvents s) 2)) ∧
    (flag ≠ 0x00#8 → flag ≠ 0x01#8 → exec (.renderState flag) s =
      .next { s with fault := some .reservedOperand, faultAt := some s.spc, faultOp := some 0x02#8 })

/-- Derived from R118: four writes, DIG1 to DIG4 inactive in ascending order (the order is the spec's decision
D14), and no slot is active afterwards. -/
def Obligations.ClearDeactivatesEveryEnable : Prop :=
  ∀ s : State, BoundConfigured s →
    exec .clear s = .next (s.emitted (clearEvents s) 1) ∧ (s.emitted (clearEvents s) 1).activeSlots = []

/-- Derived from R120, R102 and R103 (decision D5 for the operand, D14 for the order): SELECT_DIGIT selects the slot its
operand names; any other operand only advances `spc`. -/
def Obligations.SelectDigitSelectsItsSlot : Prop :=
  ∀ (s : State) (slot : Byte),
    (BoundConfigured s → 1#8 ≤ slot → slot ≤ 4#8 →
      exec (.selectDigit slot) s = .next (s.emitted (selectEvents s (slot.toNat : Int)) 2)) ∧
    (slot = 0#8 ∨ 5#8 ≤ slot → exec (.selectDigit slot) s = .next { s with spc := s.spc + 2 })

/-- Derived from R106, R110, R111 and R112: a valid request draws each character in the slot that R112's closed form
gives it, under either policy, in order, and nothing else happens. -/
def Obligations.ValidRequestDrawsEachCharacterInItsSlot : Prop :=
  ∀ (s : State) (req : List Byte), BoundConfigured s → req.length ≤ 255 → valid req = true →
    exec (.renderValue req) s = .next (s.emitted (requestEvents s req) (2 + req.length))

/-- Derived from R150, R109, R102 and R94: a request that fails the Validator draws "Err", records nothing and
completes. The unlit points of "Err" and the write orders are the spec's own choice (decisions D16, D14, D15; log 20).
-/
def Obligations.InvalidRequestDrawsErrAndCompletes : Prop :=
  ∀ (s : State) (req : List Byte), BoundConfigured s → req.length ≤ 255 → valid req = false →
    exec (.renderValue req) s = .next (s.emitted (errEvents s) (2 + req.length))

/-- Derived (I19, D3; log 15): a request that no frame can carry is refused, and only such a one. -/
def Obligations.OverlongRequestIsRefused : Prop :=
  ∀ (s : State) (req : List Byte),
    exec (.renderValue req) s = .refused .requestTooLong ↔ (Instr.renderValue req).wellFormed = false

/-- Derived from R130 and R132 to R143, the twelve setters (decision D21): the pin is configured, then the role is bound
to it, and nothing else changes. -/
def Obligations.SettersConfigureThenBind : Prop :=
  ∀ (s : State) (r : Role) (b : Byte), s.config.pinValid (pinOf b) = true →
    exec (setter r b) s =
      .next { s with
        gpio := ⟨s.gpio.pins.put (pinOf b) ⟨true, none⟩, s.gpio.trace ++ [.cfg (pinOf b)]⟩
        bind := s.bind.set r.num (pinOf b)
        spc := s.spc + 2 }

/-- Derived from R44, R153 and R155: a setter whose pin is not valid leaves no event and no change but the fault record;
its OP is 0x10 plus the role number (R66). -/
def Obligations.SettersFaultOnInvalidPin : Prop :=
  ∀ (s : State) (r : Role) (b : Byte), s.config.pinValid (pinOf b) = false →
    exec (setter r b) s =
      .next { s with
        fault := some .invalidPin
        faultAt := some s.spc
        faultOp := some (BitVec.ofNat 8 (0x10 + r.num.val)) }

/-- Derived from R8, R40 and R64 (decision D8; log 4 for a width other than 8): an operand names a pin when its value is
below 2^`PIN_ID_WIDTH`; from width 8 on every operand does, and at width 8 every pin has its operand, and only one. -/
def Obligations.PinOperandsNameThePinSpace : Prop :=
  ∀ c : Config,
    (∀ b, c.pinValid (pinOf b) = true ↔ b.toNat < 2 ^ c.pinIdWidth ∧ b.toNat ∉ c.absentPins) ∧
    (8 ≤ c.pinIdWidth → ∀ b, c.hasPin (pinOf b) = true) ∧
    (c.pinIdWidth = 8 → ∀ p, c.hasPin p = true → ∃ b, pinOf b = p ∧ ∀ b', pinOf b' = p → b' = b)

/-- Derived from R155 (decision D6): a `raise` ends the command at once; what was emitted and written before it stays;
the record is set; `spc` stays; the block is halted. During reset `faultAt` and `faultOp` are none. -/
def Obligations.RaiseEndsTheCommandAndHalts : Prop :=
  (∀ (s : State) (i : Instr) (before after : List Action) (t : State) (code : FaultCode),
    runActions before s = .done t →
    ∃ u, complete i (runActions (before ++ .raise code :: after) s) = .next u ∧
      u = { t with fault := some code, faultAt := some t.spc, faultOp := some i.opcode } ∧
      u.gpio.trace = t.gpio.trace ∧ u.spc = s.spc ∧ step u = .fault (.halted code)) ∧
  ∀ (c : Config) (bs : List Byte), (State.resetWith c bs).faultAt = none ∧ (State.resetWith c bs).faultOp = none

/-! Frames. -/

/-- Derived from R22, R24, R43, R45: the frame of the five operation commands when they complete (a reserved FLAG is
R113's statement). Bindings, parameters, stream and fault record stay; no pin's `cfg` changes; a pin that no role is
bound to stays as it was. -/
def Obligations.OperationCommandsFrame : Prop :=
  ∀ (s t : State) (i : Instr), BoundConfigured s → (∀ r p, i ≠ setter r p) →
    (∀ flag, i = .renderState flag → flag = 0x00#8 ∨ flag = 0x01#8) → exec i s = .next t →
    t.config = s.config ∧ t.bind = s.bind ∧ t.stream = s.stream ∧
    t.fault = s.fault ∧ t.faultAt = s.faultAt ∧ t.faultOp = s.faultOp ∧
    (∀ p, (t.pin p).cfg = (s.pin p).cfg) ∧
    ∀ p, (∀ r, s.binding r ≠ p) → t.pin p = s.pin p

/-- Derived from R102, R118, R119 and R121: CLEAR and SELECT_DIGIT change no pin but those bound to DIG1 to DIG4: not
the segment lines and not the point. -/
def Obligations.ClearAndSelectTouchOnlyEnables : Prop :=
  ∀ (s t : State) (i : Instr), (i = .clear ∨ ∃ slot, i = .selectDigit slot) → exec i s = .next t →
    ∀ p, (∀ line ∈ digLines, s.binding line.2 ≠ p) → t.pin p = s.pin p

/-- Derived from R130 and R131: the frame of a setter that completes. Only its own binding, its new pin, the trace and
`spc` change: every other binding stays, and every pin but the new one, the old pin of the role among them, keeps its
level and stays an output. -/
def Obligations.SettersFrame : Prop :=
  ∀ (s t : State) (r : Role) (b : Byte), s.config.pinValid (pinOf b) = true → exec (setter r b) s = .next t →
    t.config = s.config ∧ t.stream = s.stream ∧
    t.fault = s.fault ∧ t.faultAt = s.faultAt ∧ t.faultOp = s.faultOp ∧
    t.binding r = pinOf b ∧ (∀ q, q ≠ r → t.binding q = s.binding q) ∧
    t.pin (pinOf b) = ⟨true, none⟩ ∧ ∀ q, q ≠ pinOf b → t.pin q = s.pin q

/-! Invariants and rules about the whole machine. -/

/-- Derived from R26: every bound pin is configured, and every step keeps it. -/
def Obligations.BoundPinsStayConfigured : Prop :=
  ∀ s t : State, BoundConfigured s → step s = .next t → BoundConfigured t

/-- Derived from R20, R40 and R44: every bound pin, and every pin the block knows anything of, is one of the PinIds of
`PIN_ID_WIDTH` bits, and every step keeps it so. -/
def Obligations.PinsStayInThePinSpace : Prop :=
  ∀ s t : State, InPinSpace s → step s = .next t → InPinSpace t

/-- The pin space keeps its canonical form (the model's own representation, log 12). -/
def Obligations.PinSpaceStaysCanonical : Prop :=
  ∀ s t : State, s.gpio.pins.wf → step s = .next t → t.gpio.pins.wf

/-- Derived from R34 and R47: the trace only grows, and the pins stay a function of it. -/
def Obligations.TraceGrowsAndExplainsPins : Prop :=
  ∀ s t : State, step s = .next t →
    (∃ evs, t.gpio.trace = s.gpio.trace ++ evs) ∧ (TraceExplainsPins s → TraceExplainsPins t)

/-- Derived from R31 and R155: `faultAt` and `faultOp` are set only together with `fault`. -/
def Obligations.FaultRecordStaysCoherent : Prop :=
  ∀ s t : State, FaultRecordCoherent s → step s = .next t → FaultRecordCoherent t

/-- Derived (R153, R154, R155): a step that faults raises one of the codes 1 to 3, emits nothing and changes nothing but
the record, which holds `spc` and the byte there. -/
def Obligations.FaultsArePreciseAndGuardsUnreachable : Prop :=
  ∀ (s t : State) (code : FaultCode), BoundConfigured s → step s = .next t → t.fault = some code →
    (code = .undefinedOpcode ∨ code = .reservedOperand ∨ code = .invalidPin) ∧
    ∃ op, s.stream[s.spc]? = some op ∧
      t = { s with fault := some code, faultAt := some s.spc, faultOp := some op }

/-- R27 (decision D1): a completed command advances `spc` by the length of its frame; a faulting frame does not. -/
def Obligations.SpcAdvancesByTheFrame : Prop :=
  ∀ s t : State, step s = .next t →
    (t.fault = none ∧ ∃ i rest, i.wellFormed = true ∧ s.stream.drop s.spc = encode i ++ rest ∧
      t.spc = s.spc + (encode i).length) ∨
    (t.fault ≠ none ∧ t.spc = s.spc)

/-- Derived from R22 and R130: a binding changes only by the setter of its role, to that setter's pin. -/
def Obligations.BindingsChangeOnlyBySetters : Prop :=
  ∀ (s t : State) (r : Role), step s = .next t → t.binding r ≠ s.binding r →
    ∃ b rest, fetch s = .frame (setter r b) rest ∧ t.binding r = pinOf b

/-- Derived from R32, R43 and R57: no step writes the command stream or the parameters, the glyph LUT among them. -/
def Obligations.StreamAndParametersAreNeverWritten : Prop :=
  ∀ s t : State, step s = .next t → t.stream = s.stream ∧ t.config = s.config

/-- Derived from R131 and R183: a pin that no role is bound to keeps its state through every step but a setter's that
names it. An old digit enable left active therefore stays active. -/
def Obligations.UnboundPinsKeepTheirState : Prop :=
  ∀ (s t : State) (p : PinId), (∀ r, s.binding r ≠ p) →
    (∀ r b rest, fetch s = .frame (setter r b) rest → pinOf b ≠ p) →
    step s = .next t → t.pin p = s.pin p

/-- Derived (R180), the headline: under premises (a) to (c) at most one enable line is active at every instant of a
step, read off the events the step adds to the trace; at most one is active after it; and the premises hold again unless
the command is a setter. Premise (d) is the host's duty and has no move in the model (log 13). -/
def Obligations.AtMostOneEnableAtEveryInstant : Prop :=
  ∀ s t : State, BoundConfigured s → MuxPremises s → step s = .next t →
    ∃ evs, t.gpio.trace = s.gpio.trace ++ evs ∧
      (∀ n, (activeSlotsIn s (replay (evs.take n) s.gpio.pins)).length ≤ 1) ∧
      t.activeSlots.length ≤ 1 ∧
      ((∀ r p rest, fetch s ≠ .frame (setter r p) rest) → MuxPremises t)

/-- Derived (R172): from any levels, the commands R172 lists establish the premises of R180. A valid request that holds
a digit draws one in slots 1 to 4 under either policy. -/
def Obligations.FirstSelectEstablishesThePremises : Prop :=
  ∀ (s : State) (i : Instr), BoundConfigured s → EnablesUnaliased s →
    (i = .clear ∨ i = .renderError ∨ i = .renderState 0x00#8 ∨ i = .renderState 0x01#8 ∨
      (∃ slot, i = .selectDigit slot ∧ 1#8 ≤ slot ∧ slot ≤ 4#8) ∨
      ∃ req, i = .renderValue req ∧ req.length ≤ 255 ∧ (valid req = false ∨ ∃ c ∈ req, isDigit c = true)) →
    ∃ t, exec i s = .next t ∧ MuxPremises t

/-- Derived (R119): two CLEARs leave the pins as one does, with four more events. -/
def Obligations.ClearTwiceIsClearOnce : Prop :=
  ∀ s : State, BoundConfigured s →
    ∃ t u, exec .clear s = .next t ∧ exec .clear t = .next u ∧ (∀ p, u.pin p = t.pin p) ∧
      u.activeSlots = [] ∧ u.gpio.trace.length = t.gpio.trace.length + 4

/-- Derived (R122): the bounds on a command's events. -/
def Obligations.CommandsEmitBoundedEvents : Prop :=
  ∀ (s t : State) (i : Instr), BoundConfigured s → exec i s = .next t →
    ∃ evs, t.gpio.trace = s.gpio.trace ++ evs ∧ evs.length ≤ 76 ∧
      (i = .renderError ∨ (∃ flag, i = .renderState flag) ∨ (∃ req, i = .renderValue req ∧ valid req = false) →
        evs.length ≤ 39) ∧
      (i = .clear ∨ (∃ slot, i = .selectDigit slot) → evs.length ≤ 4) ∧
      ((∃ r p, i = setter r p) → evs.length ≤ 1)

/-- Derived (R189): the holds of each command that completes. -/
def Obligations.HoldsPerCommand : Prop :=
  ∀ s : State, BoundConfigured s →
    let holds := fun evs : List Event => evs.count (.h s.config.settle)
    (∀ req, req.length ≤ 255 → valid req = true → ∃ evs t, exec (.renderValue req) s = .next t ∧
      t.gpio.trace = s.gpio.trace ++ evs ∧ holds evs = req.length) ∧
    (∀ i, (i = .renderError ∨ i = .renderState 0x00#8 ∨
        ∃ req, i = .renderValue req ∧ req.length ≤ 255 ∧ valid req = false) →
      ∃ evs t, exec i s = .next t ∧ t.gpio.trace = s.gpio.trace ++ evs ∧ holds evs = 3) ∧
    (∃ evs t, exec (.renderState 0x01#8) s = .next t ∧ t.gpio.trace = s.gpio.trace ++ evs ∧ holds evs = 2) ∧
    ∀ i, (i = .clear ∨ (∃ slot, i = .selectDigit slot) ∨ ∃ r b, i = setter r b ∧ s.config.pinValid (pinOf b) = true) →
      ∃ evs t, exec i s = .next t ∧ t.gpio.trace = s.gpio.trace ++ evs ∧ holds evs = 0

/-- Derived (R112, R186): the number of events of a valid request under NET_ZERO: 13 a digit and 6 a point, but 4 fewer
for a point that the request begins with, whose select makes none. -/
def Obligations.NetZeroEventCountOfAValidRequest : Prop :=
  ∀ (s : State) (req : List Byte), BoundConfigured s → s.config.dpSlotPolicy = .netZero → req.length ≤ 255 →
    valid req = true →
    ∃ evs t, exec (.renderValue req) s = .next t ∧ t.gpio.trace = s.gpio.trace ++ evs ∧
      evs.length + (if req.head? = some 0x2E#8 then 4 else 0) =
        13 * (req.countP fun c => isDigit c) + 6 * req.count 0x2E#8

/-- Derived (R107): under NET_ZERO, with no two roles on one pin, a valid request that ends with a digit and its point
leaves that digit's slot alone active, its pattern on the segment lines and its point lit. -/
def Obligations.PointLightsTheDigitBeforeIt : Prop :=
  ∀ (s : State) (before : List Byte) (d : Byte), BoundConfigured s → (Role.all.map s.binding).Nodup →
    s.config.dpSlotPolicy = .netZero → isDigit d = true → valid (before ++ [d, 0x2E#8]) = true →
    ∃ t, exec (.renderValue (before ++ [d, 0x2E#8])) s = .next t ∧ t.roleLevel .dp = some s.config.dpLit ∧
      (∀ line ∈ digLines, t.roleLevel line.2 =
        some (if line.1 = 1 + (before.countP fun c => isDigit c : Nat) then s.config.enActive else s.config.enInactive)) ∧
      ∀ line ∈ segLines, t.roleLevel line.2 =
        some (s.segLevel ((s.config.glyphLut[d.toNat - 0x30]?).getD 0#7) line.1)

/-- Derived (R108): a lone point emits its write and its hold, selects nothing, and leaves every enable line and segment
line on a pin of its own as it was, under either policy. -/
def Obligations.LeadingPointSelectsNothing : Prop :=
  ∀ s : State, BoundConfigured s →
    exec (.renderValue [0x2E#8]) s = .next (s.emitted [s.wEvent .dp s.config.dpLit, .h s.config.settle] 3)

/-- Derived from the example of R116: with no two roles on one pin RENDER_ERROR ends with slot 3 alone active, showing
the 'r' pattern, the point unlit. -/
def Obligations.RenderErrorEndsShowingR : Prop :=
  ∀ s : State, BoundConfigured s → (Role.all.map s.binding).Nodup →
    ∃ t, exec .renderError s = .next t ∧ t.activeSlots = [3] ∧ t.roleLevel .dp = some s.config.dpUnlit ∧
      ∀ line ∈ segLines, t.roleLevel line.2 = some (s.segLevel s.config.glyphLut[11] line.1)

/-- Derived from R8, R45, R105, R106, R118 and R120 (decision D13; the orders are D14): with the two levels the source
fixes, the enable lines go LOW and the selected one HIGH, a digit drives the point HIGH and a point drives it LOW. -/
def Obligations.LevelsTheSourceFixes : Prop :=
  ∀ s : State, BoundConfigured s → s.config.dpLit = .low → s.config.enActive = .high →
    exec .clear s =
      .next (s.emitted [s.wEvent .dig1 .low, s.wEvent .dig2 .low, s.wEvent .dig3 .low, s.wEvent .dig4 .low] 1) ∧
    exec (.selectDigit 1#8) s =
      .next (s.emitted [s.wEvent .dig2 .low, s.wEvent .dig3 .low, s.wEvent .dig4 .low, s.wEvent .dig1 .high] 2) ∧
    exec (.selectDigit 2#8) s =
      .next (s.emitted [s.wEvent .dig1 .low, s.wEvent .dig3 .low, s.wEvent .dig4 .low, s.wEvent .dig2 .high] 2) ∧
    exec (.selectDigit 3#8) s =
      .next (s.emitted [s.wEvent .dig1 .low, s.wEvent .dig2 .low, s.wEvent .dig4 .low, s.wEvent .dig3 .high] 2) ∧
    exec (.selectDigit 4#8) s =
      .next (s.emitted [s.wEvent .dig1 .low, s.wEvent .dig2 .low, s.wEvent .dig3 .low, s.wEvent .dig4 .high] 2) ∧
    exec (.renderValue [0x2E#8]) s = .next (s.emitted [s.wEvent .dp .low, .h s.config.settle] 3) ∧
    ∀ n : Fin 10, exec (.renderValue [BitVec.ofNat 8 (0x30 + n.val)]) s =
      .next (s.emitted
        ([s.wEvent .dig2 .low, s.wEvent .dig3 .low, s.wEvent .dig4 .low, s.wEvent .dig1 .high, s.wEvent .dp .high] ++
          segmentEvents s s.config.glyphLut[n.val] ++ [.h s.config.settle]) 3)
end

