-- ==== Sys2Proof/Laws/Decode.lean ====
section
/-! SUPPORT. The opcode map, the frame length and the decoder's cases, each said once. -/

namespace Sys2Proof

/-- The form of a command's frame (R65). -/
def Instr.form : Instr → Form
  | .renderValue _ => .fs .renderValue
  | .renderState _ => .f1 .renderState
  | .renderError => .f0 .renderError
  | .clear => .f0 .clear
  | .selectDigit _ => .f1 .selectDigit
  | .setSegA _ => .f1 .setSegA
  | .setSegB _ => .f1 .setSegB
  | .setSegC _ => .f1 .setSegC
  | .setSegD _ => .f1 .setSegD
  | .setSegE _ => .f1 .setSegE
  | .setSegF _ => .f1 .setSegF
  | .setSegG _ => .f1 .setSegG
  | .setDp _ => .f1 .setDp
  | .setDig1 _ => .f1 .setDig1
  | .setDig2 _ => .f1 .setDig2
  | .setDig3 _ => .f1 .setDig3
  | .setDig4 _ => .f1 .setDig4

/-- The opcode map has a command's own form at its OP byte. -/
theorem opcodeMap_opcode (i : Instr) : opcodeMap i.opcode = some i.form := by cases i <;> rfl

@[simp] theorem decode_nil : decode [] = .incomplete := rfl

theorem decode_cons (op : Byte) (tail : List Byte) :
    decode (op :: tail) = match opcodeMap op with
      | none => .undefinedOpcode op
      | some form => decodeFields form tail := rfl

@[simp] theorem hasAtLeast_iff (n : Nat) (l : List Byte) : hasAtLeast n l = true ↔ n ≤ l.length := by
  induction n generalizing l with
  | zero => simp [hasAtLeast]
  | succ n ih => cases l <;> simp [hasAtLeast, ih]

/-- What the fields of a frame can decode to, by format (R61, R62). -/
theorem decodeFields_cases {form : Form} {tail rest : List Byte} {i : Instr}
    (h : decodeFields form tail = .frame i rest) :
    (form = .f0 i ∧ tail = rest) ∨ (∃ mk arg, form = .f1 mk ∧ tail = arg :: rest ∧ i = mk arg) ∨
      ∃ mk len chars, form = .fs mk ∧ tail = len :: (chars ++ rest) ∧ chars.length = len.toNat ∧ i = mk chars := by
  cases form with
  | f0 j =>
    simp only [decodeFields, Decoded.frame.injEq] at h
    exact .inl ⟨by rw [h.1], h.2⟩
  | f1 mk =>
    cases tail with
    | nil => simp [decodeFields] at h
    | cons arg t =>
      simp only [decodeFields, Decoded.frame.injEq] at h
      exact .inr (.inl ⟨mk, arg, rfl, by rw [h.2], h.1.symm⟩)
  | fs mk =>
    cases tail with
    | nil => simp [decodeFields] at h
    | cons len t =>
      simp only [decodeFields] at h
      split at h
      · next hl =>
        simp only [Decoded.frame.injEq] at h
        exact .inr (.inr ⟨mk, len, t.take len.toNat, rfl, by rw [← h.2, List.take_append_drop],
          by simpa using hl, h.1.symm⟩)
      · simp at h

/-- A row of the opcode map makes only commands whose OP is that row's (R65). -/
theorem opcode_of_opcodeMap {op : Byte} {form : Form} (h : opcodeMap op = some form) :
    (∀ i, form = .f0 i → i.opcode = op ∧ i.operands = [] ∧ i.frameLen = 1) ∧
    (∀ mk, form = .f1 mk → ∀ arg, (mk arg).opcode = op ∧ (mk arg).operands = [arg] ∧ (mk arg).frameLen = 2) ∧
    (∀ mk, form = .fs mk → op = 0x01#8 ∧ mk = .renderValue) := by
  unfold opcodeMap at h
  have hop : op = BitVec.ofNat 8 op.toNat := by simp
  split at h <;> (try cases h) <;> rename_i hn <;> rw [hn] at hop <;> subst hop <;>
    refine ⟨fun i hi => ?_, fun mk hi => ?_, fun mk hi => ?_⟩ <;> cases hi <;>
    first | exact ⟨rfl, rfl, rfl⟩ | exact fun _ => ⟨rfl, rfl, rfl⟩ | exact ⟨rfl, rfl⟩

end Sys2Proof
end

