-- ==== Sys2Proof/Laws/Pins.lean ====
section
/-! SUPPORT. The pin space: a read after a write gives the value written, a write leaves every other pin alone, every
operation keeps the canonical form, and two spaces in canonical form that read alike are equal. -/

namespace Sys2Proof.Machine

@[simp] theorem Pins.get_nil (p : PinId) : Pins.get [] p = Pin.untouched := rfl

theorem Pins.get_cons (q p : PinId) (x : Pin) (ps : Pins) :
    Pins.get ((q, x) :: ps) p = if p = q then x else Pins.get ps p := rfl

theorem Pins.get_head (e : PinId × Pin) (ps : Pins) : Pins.get (e :: ps) e.1 = e.2 := if_pos rfl

theorem Pins.get_tail {e : PinId × Pin} {p : PinId} (h : p ≠ e.1) (ps : Pins) :
    Pins.get (e :: ps) p = Pins.get ps p := if_neg h

theorem Pins.get_cons_touched {x : Pin} (hx : x ≠ Pin.untouched) (p : PinId) (ps : Pins) :
    Pins.get (Pins.cons p x ps) p = x := by
  simp [Pins.cons, hx, Pins.get_cons]

theorem Pins.get_cons_of_ne {p q : PinId} (h : q ≠ p) (x : Pin) (ps : Pins) :
    Pins.get (Pins.cons p x ps) q = Pins.get ps q := by
  unfold Pins.cons
  split <;> simp [Pins.get_cons, h]

/-- A pin whose new state is not the untouched one reads as written. -/
theorem Pins.get_put_self {x : Pin} (hx : x ≠ Pin.untouched) (ps : Pins) (p : PinId) :
    Pins.get (ps.put p x) p = x := by
  induction ps with
  | nil => exact Pins.get_cons_touched hx p []
  | cons e rest ih =>
    obtain ⟨q, y⟩ := e
    unfold Pins.put
    split
    · exact Pins.get_cons_touched hx p _
    · split
      · exact Pins.get_cons_touched hx p rest
      · next h => simpa [Pins.get_cons, h] using ih

/-- A write to one pin leaves every other pin alone. -/
theorem Pins.get_put_of_ne {p q : PinId} (h : q ≠ p) (ps : Pins) (x : Pin) :
    Pins.get (ps.put p x) q = Pins.get ps q := by
  induction ps with
  | nil => exact Pins.get_cons_of_ne h x []
  | cons e rest ih =>
    obtain ⟨a, y⟩ := e
    unfold Pins.put
    split
    · exact Pins.get_cons_of_ne h x _
    · split
      · next hpa => rw [Pins.get_cons_of_ne h, Pins.get_cons, if_neg (hpa ▸ h)]
      · simp only [Pins.get_cons, ih]

theorem Pins.wf_cons {p : PinId} {x : Pin} {ps : Pins} (h : ps.wf) (hp : ∀ e ∈ ps, p < e.1) :
    (Pins.cons p x ps).wf := by
  unfold Pins.cons
  split
  · exact h
  · next hx => exact ⟨List.pairwise_cons.2 ⟨hp, h.1⟩, by simpa [hx] using h.2⟩

theorem Pins.mem_put {p : PinId} {x : Pin} {ps : Pins} {e : PinId × Pin} (h : e ∈ ps.put p x) :
    e.1 = p ∨ e ∈ ps := by
  induction ps with
  | nil =>
    simp only [Pins.put, Pins.cons] at h
    split at h <;> simp_all
  | cons a rest ih =>
    obtain ⟨q, y⟩ := a
    unfold Pins.put Pins.cons at h
    grind

/-- A write keeps the canonical form. -/
theorem Pins.wf_put {ps : Pins} (h : ps.wf) (p : PinId) (x : Pin) : (ps.put p x).wf := by
  induction ps with
  | nil => exact Pins.wf_cons h (by simp)
  | cons a rest ih =>
    obtain ⟨q, y⟩ := a
    have hrest : Pins.wf rest := ⟨(List.pairwise_cons.1 h.1).2, fun e he => h.2 e (by simp [he])⟩
    have hq : ∀ e ∈ rest, q < e.1 := (List.pairwise_cons.1 h.1).1
    unfold Pins.put
    split
    · next hlt =>
      refine Pins.wf_cons h fun e he => ?_
      rcases List.mem_cons.1 he with rfl | he
      · exact hlt
      · exact Nat.lt_trans hlt (hq e he)
    · split
      · next heq => exact Pins.wf_cons hrest (heq ▸ hq)
      · next hnlt hne =>
        have hgt : q < p := Nat.lt_of_le_of_ne (Nat.le_of_not_lt hnlt) (Ne.symm hne)
        refine ⟨List.pairwise_cons.2 ⟨fun e he => ?_, (ih hrest).1⟩, fun e he => ?_⟩
        · rcases Pins.mem_put he with h1 | h1
          · simpa [h1] using hgt
          · exact hq e h1
        · rcases List.mem_cons.1 he with rfl | he
          · exact h.2 _ (by simp)
          · exact (ih hrest).2 e he

/-- A write adds no pin but the written one to those listed. -/
theorem Pins.forall_put {P : PinId → Prop} {ps : Pins} (h : ∀ e ∈ ps, P e.1) {p : PinId} (hp : P p) (x : Pin) :
    ∀ e ∈ ps.put p x, P e.1 :=
  fun _ he => (Pins.mem_put he).elim (fun h1 => h1 ▸ hp) (h _)

theorem Pins.get_of_lt {ps : Pins} {p : PinId} (h : ∀ e ∈ ps, p < e.1) : Pins.get ps p = Pin.untouched := by
  induction ps with
  | nil => rfl
  | cons a rest ih =>
    have hp : p ≠ a.1 := Nat.ne_of_lt (h a (by simp))
    rw [Pins.get_cons, if_neg hp]
    exact ih fun e he => h e (by simp [he])

/-- Equal pin spaces are equal data. -/
theorem Pins.ext_of_wf {a b : Pins} (ha : a.wf) (hb : b.wf) (h : ∀ p, Pins.get a p = Pins.get b p) : a = b := by
  induction a generalizing b with
  | nil =>
    cases b with
    | nil => rfl
    | cons e rest =>
      exact absurd ((Pins.get_head e rest) ▸ (h e.1).symm) (hb.2 e (by simp))
  | cons x xs ih =>
    have hxs : Pins.wf xs := ⟨(List.pairwise_cons.1 ha.1).2, fun e he => ha.2 e (by simp [he])⟩
    have hx := (List.pairwise_cons.1 ha.1).1
    cases b with
    | nil => exact absurd ((Pins.get_head x xs) ▸ h x.1) (ha.2 x (by simp))
    | cons y ys =>
      have hys : Pins.wf ys := ⟨(List.pairwise_cons.1 hb.1).2, fun e he => hb.2 e (by simp [he])⟩
      have hy := (List.pairwise_cons.1 hb.1).1
      have hkey : x.1 = y.1 := by
        by_contra hne
        have hlt : x.1 < y.1 ∨ y.1 < x.1 := Nat.lt_or_gt_of_ne hne
        rcases hlt with hlt | hlt
        · have : Pins.get (y :: ys) x.1 = Pin.untouched := by
            refine Pins.get_of_lt fun e he => ?_
            rcases List.mem_cons.1 he with rfl | he
            · exact hlt
            · exact Nat.lt_trans hlt (hy e he)
          exact ha.2 x (by simp) (by rw [← this, ← h x.1, Pins.get_head])
        · have : Pins.get (x :: xs) y.1 = Pin.untouched := by
            refine Pins.get_of_lt fun e he => ?_
            rcases List.mem_cons.1 he with rfl | he
            · exact hlt
            · exact Nat.lt_trans hlt (hx e he)
          exact hb.2 y (by simp) (by rw [← this, h y.1, Pins.get_head])
      have hval : x.2 = y.2 := by
        rw [← Pins.get_head x xs, h x.1, hkey, Pins.get_head]
      have hrest : xs = ys := by
        refine ih hxs hys fun p => ?_
        by_cases hp : p = x.1
        · rw [hp, Pins.get_of_lt hx, Pins.get_of_lt (hkey ▸ hy)]
        · rw [← Pins.get_tail hp xs, h p, Pins.get_tail (hkey ▸ hp)]
      rw [Prod.ext hkey hval, hrest]

@[simp] theorem replay_nil (ps : Pins) : replay [] ps = ps := rfl

@[simp] theorem replay_cons (e : Event) (evs : List Event) (ps : Pins) :
    replay (e :: evs) ps = replay evs (e.effect ps) := rfl

@[simp] theorem replay_append (a b : List Event) (ps : Pins) : replay (a ++ b) ps = replay b (replay a ps) := by
  simp [replay]

/-- Every event keeps the canonical form. -/
theorem Event.wf_effect {ps : Pins} (h : ps.wf) (e : Event) : (e.effect ps).wf := by
  cases e with
  | cfg p => exact Pins.wf_put h _ _
  | w p v => exact Pins.wf_put h _ _
  | h n => exact h

theorem wf_replay {ps : Pins} (h : ps.wf) (evs : List Event) : (replay evs ps).wf := by
  induction evs generalizing ps with
  | nil => exact h
  | cons e rest ih => exact ih (Event.wf_effect h e)

/-- The pin an event acts on, if any. -/
def Event.pin? : Event → Option PinId
  | .cfg p => some p
  | .w p _ => some p
  | .h _ => none

/-- Events list no pin but those they act on. -/
theorem forall_replay {P : PinId → Prop} {ps : Pins} (h : ∀ e ∈ ps, P e.1) {evs : List Event}
    (he : ∀ ev ∈ evs, ∀ p, ev.pin? = some p → P p) : ∀ e ∈ replay evs ps, P e.1 := by
  induction evs generalizing ps with
  | nil => exact h
  | cons ev rest ih =>
    refine ih ?_ fun ev' hev' => he ev' (by simp [hev'])
    have hp := he ev (by simp)
    cases ev with
    | cfg p => exact Pins.forall_put h (hp p rfl) _
    | w p v => exact Pins.forall_put h (hp p rfl) _
    | h n => exact h

/-- The level a write leaves on its pin (R45). -/
theorem Pins.get_write_self (ps : Pins) (p : PinId) (v : Level) :
    Pins.get ((Event.w p v).effect ps) p = { Pins.get ps p with lvl := some v } :=
  Pins.get_put_self (by simp [Pin.untouched]) ps p

/-- A configured pin whose level is unknown (R44). -/
theorem Pins.get_configure_self (ps : Pins) (p : PinId) :
    Pins.get ((Event.cfg p).effect ps) p = ⟨true, none⟩ :=
  Pins.get_put_self (by simp [Pin.untouched]) ps p

/-- An event leaves every pin it does not act on alone. -/
theorem Event.get_effect_of_ne {e : Event} {p : PinId} (h : e.pin? ≠ some p) (ps : Pins) :
    Pins.get (e.effect ps) p = Pins.get ps p := by
  cases e with
  | cfg q => exact Pins.get_put_of_ne (fun hp => h (by simp [Event.pin?, hp])) ps _
  | w q v => exact Pins.get_put_of_ne (fun hp => h (by simp [Event.pin?, hp])) ps _
  | h n => rfl

/-- Events leave every pin that none of them acts on alone. -/
theorem get_replay_of_untouched {evs : List Event} {p : PinId} (h : ∀ e ∈ evs, e.pin? ≠ some p) (ps : Pins) :
    Pins.get (replay evs ps) p = Pins.get ps p := by
  induction evs generalizing ps with
  | nil => rfl
  | cons e rest ih =>
    rw [replay_cons, ih fun e' he' => h e' (by simp [he'])]
    exact Event.get_effect_of_ne (h e (by simp)) ps

/-- No event takes a pin's configured mark away. -/
theorem Event.cfg_effect (e : Event) {ps : Pins} {p : PinId} (h : (Pins.get ps p).cfg = true) :
    (Pins.get (e.effect ps) p).cfg = true := by
  by_cases he : e.pin? = some p
  · cases e with
    | cfg q => cases he; simp [Pins.get_configure_self]
    | w q v => cases he; simpa [Pins.get_write_self] using h
    | h n => cases he
  · rwa [Event.get_effect_of_ne he]

theorem cfg_replay (evs : List Event) {ps : Pins} {p : PinId} (h : (Pins.get ps p).cfg = true) :
    (Pins.get (replay evs ps) p).cfg = true := by
  induction evs generalizing ps with
  | nil => exact h
  | cons e rest ih => exact ih (e.cfg_effect h)

end Sys2Proof.Machine
end

