-- ==== Sys2Proof/Laws/State.lean ====
section
/-! SUPPORT. One lemma per field and update of State, so that no proof unfolds a record update. -/

namespace Sys2Proof.Machine

@[simp] theorem State.setBinding_config (s : State) (r : Role) (p : PinId) : (s.setBinding r p).config = s.config := rfl

@[simp] theorem State.setBinding_bind (s : State) (r : Role) (p : PinId) : (s.setBinding r p).bind = s.bind.set r.num p := rfl

@[simp] theorem State.setBinding_gpio (s : State) (r : Role) (p : PinId) : (s.setBinding r p).gpio = s.gpio := rfl

@[simp] theorem State.setBinding_stream (s : State) (r : Role) (p : PinId) : (s.setBinding r p).stream = s.stream := rfl

@[simp] theorem State.setBinding_spc (s : State) (r : Role) (p : PinId) : (s.setBinding r p).spc = s.spc := rfl

@[simp] theorem State.setBinding_fault (s : State) (r : Role) (p : PinId) : (s.setBinding r p).fault = s.fault := rfl

@[simp] theorem State.setBinding_faultAt (s : State) (r : Role) (p : PinId) : (s.setBinding r p).faultAt = s.faultAt := rfl

@[simp] theorem State.setBinding_faultOp (s : State) (r : Role) (p : PinId) : (s.setBinding r p).faultOp = s.faultOp := rfl

@[simp] theorem raiseFault_config (code : FaultCode) (op : Byte) (s : State) : (raiseFault code op s).config = s.config := rfl

@[simp] theorem raiseFault_bind (code : FaultCode) (op : Byte) (s : State) : (raiseFault code op s).bind = s.bind := rfl

@[simp] theorem raiseFault_gpio (code : FaultCode) (op : Byte) (s : State) : (raiseFault code op s).gpio = s.gpio := rfl

@[simp] theorem raiseFault_stream (code : FaultCode) (op : Byte) (s : State) : (raiseFault code op s).stream = s.stream := rfl

@[simp] theorem raiseFault_spc (code : FaultCode) (op : Byte) (s : State) : (raiseFault code op s).spc = s.spc := rfl

@[simp] theorem raiseFault_fault (code : FaultCode) (op : Byte) (s : State) : (raiseFault code op s).fault = some code := rfl

@[simp] theorem raiseFault_faultAt (code : FaultCode) (op : Byte) (s : State) : (raiseFault code op s).faultAt = some s.spc := rfl

@[simp] theorem raiseFault_faultOp (code : FaultCode) (op : Byte) (s : State) : (raiseFault code op s).faultOp = some op := rfl

@[simp] theorem State.arrive_config (bs : List Byte) (s : State) : (s.arrive bs).config = s.config := rfl

@[simp] theorem State.arrive_bind (bs : List Byte) (s : State) : (s.arrive bs).bind = s.bind := rfl

@[simp] theorem State.arrive_gpio (bs : List Byte) (s : State) : (s.arrive bs).gpio = s.gpio := rfl

@[simp] theorem State.arrive_stream (bs : List Byte) (s : State) : (s.arrive bs).stream = s.stream ++ bs := rfl

@[simp] theorem State.arrive_spc (bs : List Byte) (s : State) : (s.arrive bs).spc = s.spc := rfl

@[simp] theorem State.arrive_fault (bs : List Byte) (s : State) : (s.arrive bs).fault = s.fault := rfl

@[simp] theorem State.arrive_faultAt (bs : List Byte) (s : State) : (s.arrive bs).faultAt = s.faultAt := rfl

@[simp] theorem State.arrive_faultOp (bs : List Byte) (s : State) : (s.arrive bs).faultOp = s.faultOp := rfl

@[simp] theorem State.emitted_config (s : State) (evs : List Event) (len : Nat) : (s.emitted evs len).config = s.config := rfl

@[simp] theorem State.emitted_bind (s : State) (evs : List Event) (len : Nat) : (s.emitted evs len).bind = s.bind := rfl

@[simp] theorem State.emitted_gpio (s : State) (evs : List Event) (len : Nat) : (s.emitted evs len).gpio = ⟨replay evs s.gpio.pins, s.gpio.trace ++ evs⟩ := rfl

@[simp] theorem State.emitted_stream (s : State) (evs : List Event) (len : Nat) : (s.emitted evs len).stream = s.stream := rfl

@[simp] theorem State.emitted_spc (s : State) (evs : List Event) (len : Nat) : (s.emitted evs len).spc = s.spc + len := rfl

@[simp] theorem State.emitted_fault (s : State) (evs : List Event) (len : Nat) : (s.emitted evs len).fault = s.fault := rfl

@[simp] theorem State.emitted_faultAt (s : State) (evs : List Event) (len : Nat) : (s.emitted evs len).faultAt = s.faultAt := rfl

@[simp] theorem State.emitted_faultOp (s : State) (evs : List Event) (len : Nat) : (s.emitted evs len).faultOp = s.faultOp := rfl

@[simp] theorem State.withFetchWord_config (s : State) (nbits w : Nat) : (s.withFetchWord nbits w).config = s.config := rfl

@[simp] theorem State.withFetchWord_bind (s : State) (nbits w : Nat) : (s.withFetchWord nbits w).bind = s.bind := rfl

@[simp] theorem State.withFetchWord_gpio (s : State) (nbits w : Nat) : (s.withFetchWord nbits w).gpio = s.gpio := rfl

@[simp] theorem State.withFetchWord_stream (s : State) (nbits w : Nat) : (s.withFetchWord nbits w).stream = putBytes s.stream s.spc (firstFrame (tableBytes nbits w)) := rfl

@[simp] theorem State.withFetchWord_spc (s : State) (nbits w : Nat) : (s.withFetchWord nbits w).spc = s.spc := rfl

@[simp] theorem State.withFetchWord_fault (s : State) (nbits w : Nat) : (s.withFetchWord nbits w).fault = none := rfl

@[simp] theorem State.withFetchWord_faultAt (s : State) (nbits w : Nat) : (s.withFetchWord nbits w).faultAt = none := rfl

@[simp] theorem State.withFetchWord_faultOp (s : State) (nbits w : Nat) : (s.withFetchWord nbits w).faultOp = none := rfl

@[simp] theorem resetWith_config (c : Config) (bs : List Byte) : (State.resetWith c bs).config = c := rfl

@[simp] theorem resetWith_bind (c : Config) (bs : List Byte) : (State.resetWith c bs).bind = c.defaultPins := rfl

@[simp] theorem resetWith_stream (c : Config) (bs : List Byte) : (State.resetWith c bs).stream = bs := rfl

@[simp] theorem resetWith_spc (c : Config) (bs : List Byte) : (State.resetWith c bs).spc = 0 := rfl

@[simp] theorem State.emitted_binding (s : State) (evs : List Event) (len : Nat) (r : Role) :
    (s.emitted evs len).binding r = s.binding r := rfl

@[simp] theorem State.emitted_pin (s : State) (evs : List Event) (len : Nat) (p : PinId) :
    (s.emitted evs len).pin p = Pins.get (replay evs s.gpio.pins) p := rfl

@[simp] theorem raiseFault_binding (code : FaultCode) (op : Byte) (s : State) (r : Role) :
    (raiseFault code op s).binding r = s.binding r := rfl

@[simp] theorem raiseFault_pin (code : FaultCode) (op : Byte) (s : State) (p : PinId) :
    (raiseFault code op s).pin p = s.pin p := rfl

@[simp] theorem State.arrive_binding (bs : List Byte) (s : State) (r : Role) :
    (s.arrive bs).binding r = s.binding r := rfl

@[simp] theorem State.setBinding_pin (s : State) (r : Role) (q : PinId) (p : PinId) :
    (s.setBinding r q).pin p = s.pin p := rfl

/-- The binding just written reads as written (R20). -/
@[simp] theorem State.binding_setBinding_self (s : State) (r : Role) (p : PinId) :
    (s.setBinding r p).binding r = p := by
  simp [State.binding]

theorem role_num_injective {a b : Role} (h : a.num = b.num) : a = b := by
  cases a <;> cases b <;> first | rfl | exact absurd h (by decide)

/-- A write to one binding leaves every other binding alone (R41). -/
theorem State.binding_setBinding_of_ne {r r' : Role} (h : r' ≠ r) (s : State) (p : PinId) :
    (s.setBinding r p).binding r' = s.binding r' := by
  have hn : (r.num : Nat) ≠ r'.num := fun e => h (role_num_injective (Fin.ext e.symm))
  simp [State.binding, Vector.getElem_set_ne, hn]

@[simp] theorem flip_ne (v : Level) : v.flip ≠ v := by cases v <;> decide

/-- The two levels of the enable lines differ (R8). -/
@[simp] theorem enInactive_ne_enActive (c : Config) : c.enInactive ≠ c.enActive := flip_ne _

@[simp] theorem State.offEvent_eq (s : State) (r : Role) : s.offEvent r = s.wEvent r s.config.enInactive := rfl

@[simp] theorem State.onEvent_eq (s : State) (r : Role) : s.onEvent r = s.wEvent r s.config.enActive := rfl

@[simp] theorem hasPin_iff (c : Config) (p : PinId) : c.hasPin p = true ↔ p < 2 ^ c.pinIdWidth :=
  decide_eq_true_iff

/-- A valid pin is in the pin space (R40). -/
theorem hasPin_of_pinValid {c : Config} {p : PinId} (h : c.pinValid p = true) : c.hasPin p = true :=
  (Bool.and_eq_true_iff.1 h).1

theorem role_mem_all (r : Role) : r ∈ Role.all := by cases r <;> decide

theorem boundConfigured_iff (s : State) : BoundConfigured s ↔ ∀ r, (s.pin (s.binding r)).cfg = true :=
  ⟨fun h r => h r (role_mem_all r), fun h r _ => h r⟩

end Sys2Proof.Machine
end

