-- ==== Sys2Proof/Laws/Levels.lean ====
section
/-! SUPPORT. The levels of the four enable lines, and how an event changes them when no other role shares their pins
(R25, R180). -/

namespace Sys2Proof.Machine

/-- The levels on the pins of DIG1 to DIG4. -/
def enableLevels (s : State) (ps : Pins) : Option Level × Option Level × Option Level × Option Level :=
  ((Pins.get ps (s.binding .dig1)).lvl, (Pins.get ps (s.binding .dig2)).lvl,
   (Pins.get ps (s.binding .dig3)).lvl, (Pins.get ps (s.binding .dig4)).lvl)

/-- The slots that four enable levels make active, when the active level is `v`. -/
def activeOf (v : Level) (q : Option Level × Option Level × Option Level × Option Level) : List Int :=
  ((([(1, q.1), (2, q.2.1), (3, q.2.2.1), (4, q.2.2.2)] : List (Int × Option Level)).filter
    fun l => l.2 = some v).map fun l => l.1)

/-- `ActiveSlots` depends on the four enable levels alone. -/
theorem activeSlotsIn_eq (s : State) (ps : Pins) : activeSlotsIn s ps = activeOf s.config.enActive (enableLevels s ps) := by
  simp only [activeSlotsIn, digLines, activeOf, enableLevels, List.filter_cons, List.filter_nil]
  split_ifs <;> rfl

/-- An event on none of the four pins leaves the levels alone. -/
theorem enableLevels_of_other {s : State} {e : Event} (h : ∀ line ∈ digLines, e.pin? ≠ some (s.binding line.2))
    (ps : Pins) : enableLevels s (e.effect ps) = enableLevels s ps := by
  have g : ∀ r, (∃ k, (k, r) ∈ digLines) → Pins.get (e.effect ps) (s.binding r) = Pins.get ps (s.binding r) := by
    rintro r ⟨k, hk⟩
    exact Event.get_effect_of_ne (h _ hk) ps
  simp only [enableLevels]
  rw [g .dig1 ⟨1, by decide⟩, g .dig2 ⟨2, by decide⟩, g .dig3 ⟨3, by decide⟩, g .dig4 ⟨4, by decide⟩]

/-- With no two roles on one pin, a write sets the level of its own role and of no other. -/
theorem lvl_wEvent {s : State} (h : (Role.all.map s.binding).Nodup) (ps : Pins) (r q : Role) (v : Level) :
    (Pins.get ((s.wEvent r v).effect ps) (s.binding q)).lvl =
      if q = r then some v else (Pins.get ps (s.binding q)).lvl := by
  split
  · next hq =>
    subst hq
    simp only [State.wEvent, Pins.get_write_self]
  · next hq =>
    have hne : s.binding r ≠ s.binding q := fun he =>
      hq (List.inj_on_of_nodup_map h (role_mem_all r) (role_mem_all q) he).symm
    rw [Event.get_effect_of_ne]
    simpa [State.wEvent, Event.pin?] using hne

end Sys2Proof.Machine
end

