-- ==== Sys2Proof/Laws/Ops.lean ====
section
/-! SUPPORT. What a list of primitive calls, a setter's body and the end of a command can do, each said once. -/

namespace Sys2Proof.Machine

/-- `s` after the events `evs` of a command that is still running. -/
def State.withEvents (s : State) (evs : List Event) : State :=
  { s with gpio := ⟨replay evs s.gpio.pins, s.gpio.trace ++ evs⟩ }

@[simp] theorem State.withEvents_nil (s : State) : s.withEvents [] = s := by
  simp [State.withEvents]

@[simp] theorem State.withEvents_withEvents (s : State) (a b : List Event) :
    (s.withEvents a).withEvents b = s.withEvents (a ++ b) := by
  simp [State.withEvents]

@[simp] theorem State.withEvents_config (s : State) (evs : List Event) : (s.withEvents evs).config = s.config := rfl

@[simp] theorem State.withEvents_bind (s : State) (evs : List Event) : (s.withEvents evs).bind = s.bind := rfl

@[simp] theorem State.withEvents_pins (s : State) (evs : List Event) :
    (s.withEvents evs).gpio.pins = replay evs s.gpio.pins := rfl

@[simp] theorem State.withEvents_trace (s : State) (evs : List Event) :
    (s.withEvents evs).gpio.trace = s.gpio.trace ++ evs := rfl

@[simp] theorem State.withEvents_spc (s : State) (evs : List Event) : (s.withEvents evs).spc = s.spc := rfl

@[simp] theorem State.withEvents_binding (s : State) (evs : List Event) (r : Role) :
    (s.withEvents evs).binding r = s.binding r := rfl

@[simp] theorem State.withEvents_wEvent (s : State) (evs : List Event) (r : Role) (v : Level) :
    (s.withEvents evs).wEvent r v = s.wEvent r v := rfl

/-- Completing after the events is `State.emitted`. -/
theorem State.withEvents_spc_emitted (s : State) (evs : List Event) (len : Nat) :
    { s.withEvents evs with spc := s.spc + len } = s.emitted evs len := rfl

/-- The events of primitive calls that all succeed, with the bindings and the settle time of `s`. -/
def Action.events (s : State) : Action → List Event
  | .write r v => [s.wEvent r v]
  | .hold => [.h s.config.settle]
  | .raise _ => []

/-- A primitive call, and no `raise`. -/
def Action.isCall : Action → Bool
  | .write _ _ => true
  | .hold => true
  | .raise _ => false

@[simp] theorem Action.events_withEvents (s : State) (evs : List Event) (a : Action) :
    Action.events (s.withEvents evs) a = Action.events s a := by cases a <;> rfl

/-- An event a sequencer command can emit: a write through a role, or the settle hold (R100). -/
def SequencerEvent (s : State) (e : Event) : Prop := (∃ r v, e = s.wEvent r v) ∨ e = .h s.config.settle

theorem Action.sequencerEvent_of_mem {s : State} {a : Action} {e : Event} (h : e ∈ a.events s) :
    SequencerEvent s e := by
  cases a with
  | write r v => exact .inl ⟨r, v, by simpa [Action.events] using h⟩
  | hold => exact .inr (by simpa [Action.events] using h)
  | raise c => simp [Action.events] at h

/-- What one primitive call can do: its events, or a fault that leaves the state as it was (R44, R45, R46). -/
theorem Action.run_cases (a : Action) (s : State) :
    a.run s = .done (s.withEvents (a.events s)) ∨ ∃ code, a.run s = .raised code s := by
  cases a with
  | write r v =>
    by_cases h : (Pins.get s.gpio.pins (s.binding r)).cfg = true
    · exact .inl (by simp [Action.run, Gpio.write, h, State.withEvents, Action.events, State.wEvent, Event.effect])
    · exact .inr ⟨.unconfiguredPinWrite, by simp [Action.run, Gpio.write, h]⟩
  | hold => exact .inl (by simp [Action.run, Gpio.hold, State.withEvents, Action.events, Event.effect])
  | raise code => exact .inr ⟨code, rfl⟩

/-- With every bound pin configured, a primitive call succeeds. -/
theorem Action.run_of_boundConfigured {s : State} (hs : BoundConfigured s) {a : Action} (ha : a.isCall = true) :
    a.run s = .done (s.withEvents (a.events s)) := by
  cases a with
  | write r v =>
    have h : (Pins.get s.gpio.pins (s.binding r)).cfg = true := hs r (role_mem_all r)
    simp [Action.run, Gpio.write, h, State.withEvents, Action.events, State.wEvent, Event.effect]
  | hold => simp [Action.run, Gpio.hold, State.withEvents, Action.events, Event.effect]
  | raise code => simp [Action.isCall] at ha

/-- Events keep every bound pin configured (R26: "No rule clears `cfg`"). -/
theorem State.boundConfigured_withEvents {s : State} (hs : BoundConfigured s) (evs : List Event) :
    BoundConfigured (s.withEvents evs) :=
  fun r hr => cfg_replay evs (hs r hr)

theorem runActions_append (a b : List Action) (s : State) :
    runActions (a ++ b) s =
      match runActions a s with
      | .done s' => runActions b s'
      | .raised code s' => .raised code s' := by
  induction a generalizing s with
  | nil => rfl
  | cons x rest ih =>
    simp only [List.cons_append, runActions]
    cases x.run s with
    | done s' => exact ih s'
    | raised code s' => rfl

/-- What primitive calls in order can do: some sequencer events, ending in completion or in a fault. -/
theorem runActions_cases (as : List Action) (s : State) :
    ∃ evs, (∀ e ∈ evs, SequencerEvent s e) ∧
      (runActions as s = .done (s.withEvents evs) ∨ ∃ code, runActions as s = .raised code (s.withEvents evs)) := by
  induction as generalizing s with
  | nil => exact ⟨[], by simp, .inl (by simp [runActions])⟩
  | cons a rest ih =>
    rcases a.run_cases s with h | ⟨code, h⟩
    · obtain ⟨evs, hev, hr⟩ := ih (s.withEvents (a.events s))
      refine ⟨a.events s ++ evs, fun e he => ?_, ?_⟩
      · rcases List.mem_append.1 he with he | he
        · exact Action.sequencerEvent_of_mem he
        · exact hev e he
      · simpa [runActions, h] using hr
    · exact ⟨[], by simp, .inr ⟨code, by simp [runActions, h]⟩⟩

/-- With every bound pin configured, primitive calls emit exactly their events and complete. -/
theorem runActions_of_boundConfigured {s : State} (hs : BoundConfigured s) {as : List Action}
    (ha : ∀ a ∈ as, a.isCall = true) :
    runActions as s = .done (s.withEvents (as.flatMap (Action.events s))) := by
  induction as generalizing s with
  | nil => simp [runActions]
  | cons a rest ih =>
    have h1 := Action.run_of_boundConfigured hs (ha a (by simp))
    have h2 := ih (State.boundConfigured_withEvents hs (a.events s)) fun b hb => ha b (by simp [hb])
    have he : rest.flatMap (Action.events (s.withEvents (a.events s))) = rest.flatMap (Action.events s) :=
      congrArg rest.flatMap (funext fun b => Action.events_withEvents s (a.events s) b)
    rw [he] at h2
    simpa [runActions, h1] using h2

/-- A sequencer event acts on bound pins only. -/
theorem SequencerEvent.pin_ne {s : State} {e : Event} (h : SequencerEvent s e) {p : PinId}
    (hp : ∀ r, s.binding r ≠ p) : e.pin? ≠ some p := by
  rcases h with ⟨r, v, rfl⟩ | rfl
  · simpa [State.wEvent, Event.pin?] using hp r
  · simp [Event.pin?]

/-- Sequencer events change no pin's `cfg`. -/
theorem SequencerEvent.cfg_replay {s : State} {evs : List Event} (h : ∀ e ∈ evs, SequencerEvent s e) (ps : Pins)
    (p : PinId) : (Pins.get (replay evs ps) p).cfg = (Pins.get ps p).cfg := by
  induction evs generalizing ps with
  | nil => rfl
  | cons e rest ih =>
    rw [replay_cons, ih fun e' he' => h e' (by simp [he'])]
    rcases h e (by simp) with ⟨r, v, rfl⟩ | rfl
    · by_cases hp : p = s.binding r
      · subst hp
        simp only [State.wEvent, Pins.get_write_self]
      · rw [Event.get_effect_of_ne]
        simpa [State.wEvent, Event.pin?, eq_comm] using hp
    · rfl

/-- What a setter's body does (R130): it configures and binds, or it faults and leaves the state as it was. -/
theorem setRole_of_valid {s : State} {p : PinId} (h : s.config.pinValid p = true) (r : Role) :
    setRole r p s = .done ((s.withEvents [.cfg p]).setBinding r p) := by
  simp [setRole, Gpio.configure, h, State.withEvents, Event.effect, State.setBinding]

theorem setRole_of_invalid {s : State} {p : PinId} (h : s.config.pinValid p = false) (r : Role) :
    setRole r p s = .raised .invalidPin s := by
  simp [setRole, Gpio.configure, h]

@[simp] theorem complete_done (i : Instr) (s : State) :
    complete i (.done s) = .next { s with spc := s.spc + i.frameLen } := rfl

@[simp] theorem complete_raised (i : Instr) (code : FaultCode) (s : State) :
    complete i (.raised code s) = .next (raiseFault code i.opcode s) := rfl

end Sys2Proof.Machine
end

