-- ==== Sys2Proof/Laws/PerInstr.lean ====
section
/-! SUPPORT. One family of statements about every instruction as syntax: the encoding is as long as `FrameLen` says
(R62). -/

namespace Sys2Proof.Laws

/-- The encoding of a well-formed command has the length R62 gives it. -/
def FrameLength.Statement (i : Instr) : Prop := i.wellFormed = true → (encode i).length = i.frameLen

theorem FrameLength.renderValue (req : List Byte) : FrameLength.Statement (.renderValue req) := fun _ => by
  simp only [encode, Instr.operands, Instr.frameLen, List.length_cons]
  omega

theorem FrameLength.renderState (flag : Byte) : FrameLength.Statement (.renderState flag) := fun _ => rfl

theorem FrameLength.renderError : FrameLength.Statement (.renderError) := fun _ => rfl

theorem FrameLength.clear : FrameLength.Statement (.clear) := fun _ => rfl

theorem FrameLength.selectDigit (slot : Byte) : FrameLength.Statement (.selectDigit slot) := fun _ => rfl

theorem FrameLength.setSegA (pin : Byte) : FrameLength.Statement (.setSegA pin) := fun _ => rfl

theorem FrameLength.setSegB (pin : Byte) : FrameLength.Statement (.setSegB pin) := fun _ => rfl

theorem FrameLength.setSegC (pin : Byte) : FrameLength.Statement (.setSegC pin) := fun _ => rfl

theorem FrameLength.setSegD (pin : Byte) : FrameLength.Statement (.setSegD pin) := fun _ => rfl

theorem FrameLength.setSegE (pin : Byte) : FrameLength.Statement (.setSegE pin) := fun _ => rfl

theorem FrameLength.setSegF (pin : Byte) : FrameLength.Statement (.setSegF pin) := fun _ => rfl

theorem FrameLength.setSegG (pin : Byte) : FrameLength.Statement (.setSegG pin) := fun _ => rfl

theorem FrameLength.setDp (pin : Byte) : FrameLength.Statement (.setDp pin) := fun _ => rfl

theorem FrameLength.setDig1 (pin : Byte) : FrameLength.Statement (.setDig1 pin) := fun _ => rfl

theorem FrameLength.setDig2 (pin : Byte) : FrameLength.Statement (.setDig2 pin) := fun _ => rfl

theorem FrameLength.setDig3 (pin : Byte) : FrameLength.Statement (.setDig3 pin) := fun _ => rfl

theorem FrameLength.setDig4 (pin : Byte) : FrameLength.Statement (.setDig4 pin) := fun _ => rfl

end Sys2Proof.Laws
end

