-- ==== Sys2Proof/Laws/Reset.lean ====
section
/-! SUPPORT. Reset's configure loop, said once (R171). -/

namespace Sys2Proof.Machine

/-- Valid pins are configured in order, one event each, and the loop goes on with what follows them. -/
theorem configureAll_append (valid : PinId → Bool) (ps qs : List PinId) (g : Gpio) (h : ∀ p ∈ ps, valid p = true) :
    Gpio.configureAll valid (ps ++ qs) g =
      Gpio.configureAll valid qs ⟨replay (ps.map .cfg) g.pins, g.trace ++ ps.map .cfg⟩ := by
  induction ps generalizing g with
  | nil => simp
  | cons p ps ih =>
    have hp := h p (by simp)
    simp only [List.cons_append, Gpio.configureAll, Gpio.configure, hp, if_true]
    rw [ih _ fun q hq => h q (by simp [hq])]
    simp [Event.effect]

theorem configureAll_of_valid (valid : PinId → Bool) (ps : List PinId) (g : Gpio) (h : ∀ p ∈ ps, valid p = true) :
    Gpio.configureAll valid ps g = (⟨replay (ps.map .cfg) g.pins, g.trace ++ ps.map .cfg⟩, none) := by
  simpa [Gpio.configureAll] using configureAll_append valid ps [] g h

/-- The first pin that is not valid ends the loop. -/
theorem configureAll_of_invalid (valid : PinId → Bool) (p : PinId) (ps : List PinId) (g : Gpio)
    (h : valid p = false) : Gpio.configureAll valid (p :: ps) g = (g, some .invalidPin) := by
  simp [Gpio.configureAll, Gpio.configure, h]

/-- A pin that was configured, or has just been, is an output of unknown level after configure events alone. -/
theorem get_replay_configures (ps : List PinId) (pins : Pins) (p : PinId)
    (h : p ∈ ps ∨ Pins.get pins p = ⟨true, none⟩) : Pins.get (replay (ps.map .cfg) pins) p = ⟨true, none⟩ := by
  induction ps generalizing pins with
  | nil => simpa using h
  | cons q ps ih =>
    simp only [List.map_cons, replay_cons]
    apply ih
    by_cases hq : p = q
    · exact .inr (hq ▸ Pins.get_configure_self _ _)
    · refine h.imp (fun h => by simpa [hq] using h) fun h => ?_
      rw [Event.get_effect_of_ne (by simpa [Event.pin?, eq_comm] using hq)]
      exact h

end Sys2Proof.Machine
end

