-- ==== Sys2Proof/Laws/Sequencer.lean ====
section
/-! SUPPORT. The sequencer's primitives: which calls they make and which events those give, each said once. -/

namespace Sys2Proof.Machine

/-- The events of a list of calls. -/
def eventsOf (s : State) (as : List Action) : List Event := as.flatMap (Action.events s)

@[simp] theorem eventsOf_nil (s : State) : eventsOf s [] = [] := rfl

@[simp] theorem eventsOf_append (s : State) (a b : List Action) :
    eventsOf s (a ++ b) = eventsOf s a ++ eventsOf s b := List.flatMap_append

/-- A list of calls that holds no `raise`. -/
abbrev AllCalls (as : List Action) : Prop := ∀ a ∈ as, a.isCall = true

theorem allCalls_append {a b : List Action} (ha : AllCalls a) (hb : AllCalls b) : AllCalls (a ++ b) :=
  fun x hx => (List.mem_append.1 hx).elim (ha x) (hb x)

/-- `SelectDigit(k)` outside 1..4 makes no call (R103). -/
theorem selectDigit_of_outside (c : Config) {k : Int} (h : ¬ (1 ≤ k ∧ k ≤ 4)) : selectDigit c k = [] := if_neg h

theorem allCalls_map_write {α : Type} (f : α → Role × Level) (l : List α) :
    AllCalls (l.map fun x => Action.write (f x).1 (f x).2) := by
  intro a ha
  obtain ⟨x, -, rfl⟩ := List.mem_map.1 ha
  rfl

theorem allCalls_selectDigit (c : Config) (k : Int) : AllCalls (selectDigit c k) := by
  unfold selectDigit
  split
  · exact allCalls_append (allCalls_map_write (fun l : Int × Role => (l.2, c.enInactive)) _)
      (allCalls_map_write (fun l : Int × Role => (l.2, c.enActive)) _)
  · intro a ha; cases ha

theorem allCalls_driveSegments (c : Config) (g : Pattern) : AllCalls (driveSegments c g) :=
  allCalls_map_write (fun l : Nat × Role => (l.2, if g.getLsbD l.1 then c.segLit else c.segUnlit)) _

theorem driveGlyph_of_lt (c : Config) {key : Nat} (h : key < 15) :
    driveGlyph c key = driveSegments c c.glyphLut[key] := by
  simp [driveGlyph, lutRead, h]

/-- A slot-draw with one of the 15 keys makes calls only (R104, R154). -/
theorem allCalls_drawGlyph (c : Config) (k : Int) {key : Nat} (h : key < 15) (lit : Bool) :
    AllCalls (drawGlyph c k key lit) := by
  unfold drawGlyph
  rw [driveGlyph_of_lt c h]
  refine allCalls_append (allCalls_append (allCalls_append (allCalls_selectDigit c k) ?_) (allCalls_driveSegments c _)) ?_
  · simp [AllCalls, drivePoint, Action.isCall]
  · simp [AllCalls, Action.isCall]

theorem allCalls_drawPoint (c : Config) (s : Int) : AllCalls (drawPoint c s).1 := by
  unfold drawPoint
  cases c.dpSlotPolicy <;>
  · refine allCalls_append (allCalls_append (allCalls_selectDigit c _) ?_) ?_ <;>
      simp [AllCalls, drivePoint, Action.isCall]

/-- `DigitKey` of a digit is one of the ten digit keys (R93). -/
theorem digitKey_lt {c : Byte} (h : isDigit c = true) : digitKey c < 10 := by
  simp only [isDigit, decide_eq_true_eq] at h
  unfold digitKey
  bv_omega

theorem allCalls_renderDigits (c : Config) (s : Int) (req : List Byte) : AllCalls (renderDigits c s req) := by
  induction req generalizing s with
  | nil => intro a ha; cases ha
  | cons ch rest ih =>
    unfold renderDigits
    split
    · next hd => exact allCalls_append (allCalls_drawGlyph c s (by have := digitKey_lt hd; omega) false) (ih _)
    · exact allCalls_append (allCalls_drawPoint c s) (ih _)

theorem allCalls_renderErrorSeq (c : Config) : AllCalls (renderErrorSeq c) :=
  allCalls_append (allCalls_append (allCalls_drawGlyph c 1 (by decide) false) (allCalls_drawGlyph c 2 (by decide) false))
    (allCalls_drawGlyph c 3 (by decide) false)

theorem allCalls_renderStateSeq (c : Config) (flag : Bool) : AllCalls (renderStateSeq c flag) := by
  refine allCalls_append (allCalls_drawGlyph c 1 (by decide) true) ?_
  cases flag
  · exact allCalls_append (allCalls_drawGlyph c 2 (by decide) false) (allCalls_drawGlyph c 3 (by decide) false)
  · exact allCalls_drawGlyph c 2 (by decide) false

theorem allCalls_clearSeq (c : Config) : AllCalls (clearSeq c) := allCalls_map_write (fun l : Int × Role => (l.2, c.enInactive)) _

/-- The events of `SelectDigit(k)` are those R102 and R103 give. -/
theorem eventsOf_selectDigit (s : State) (k : Int) : eventsOf s (selectDigit s.config k) = selectEvents s k := by
  by_cases h : 1 ≤ k ∧ k ≤ 4
  · have hk : k = 1 ∨ k = 2 ∨ k = 3 ∨ k = 4 := by omega
    rcases hk with rfl | rfl | rfl | rfl <;> rfl
  · rw [selectDigit_of_outside _ h]
    have : k ≠ 1 ∧ k ≠ 2 ∧ k ≠ 3 ∧ k ≠ 4 := by omega
    simp [selectEvents, this]

/-- The events of `DriveSegments(g)` are the seven R94 gives. -/
theorem eventsOf_driveSegments (s : State) (g : Pattern) :
    eventsOf s (driveSegments s.config g) = segmentEvents s g := rfl

/-- The events of a slot-draw (R104). -/
theorem eventsOf_drawGlyph (s : State) (k : Int) {key : Nat} (h : key < 15) (lit : Bool) :
    eventsOf s (drawGlyph s.config k key lit) =
      slotDrawEvents s k s.config.glyphLut[key] (if lit then s.config.dpLit else s.config.dpUnlit) := by
  have hd := eventsOf_driveSegments s s.config.glyphLut[key]
  have hsel := eventsOf_selectDigit s k
  unfold drawGlyph slotDrawEvents
  rw [driveGlyph_of_lt _ h]
  simp only [eventsOf_append, hsel, hd]
  cases lit <;> rfl

/-- The slot of a point, and the counter after it (R106). -/
theorem eventsOf_drawPoint (s : State) (k : Int) :
    eventsOf s (drawPoint s.config k).1 = pointEvents s (k - 1) := by
  have hsel := eventsOf_selectDigit s (k - 1)
  unfold drawPoint pointEvents
  cases s.config.dpSlotPolicy <;>
  · simp only [eventsOf_append, hsel, List.append_assoc]
    rfl

/-- A digit at the counter `k` draws in slot `k`, and the counter advances (R111). -/
theorem eventsOf_renderDigits_digit (s : State) (k : Int) {c : Byte} (rest : List Byte) (hd : isDigit c = true) :
    ∃ g, eventsOf s (renderDigits s.config k (c :: rest)) =
      slotDrawEvents s k g s.config.dpUnlit ++ eventsOf s (renderDigits s.config (k + 1) rest) := by
  have := digitKey_lt hd
  refine ⟨s.config.glyphLut[digitKey c], ?_⟩
  rw [renderDigits, if_pos hd, eventsOf_append, eventsOf_drawGlyph s k (by omega : digitKey c < 15)]
  rfl

/-- A point at the counter `k` attaches to slot `k - 1` (R106, R111). -/
theorem eventsOf_renderDigits_point (s : State) (k : Int) {c : Byte} (rest : List Byte) (hd : isDigit c = false) :
    eventsOf s (renderDigits s.config k (c :: rest)) =
      pointEvents s (k - 1) ++ eventsOf s (renderDigits s.config (drawPoint s.config k).2 rest) := by
  rw [renderDigits, hd, if_neg (by simp), eventsOf_append, eventsOf_drawPoint]

theorem eventsOf_renderErrorSeq (s : State) : eventsOf s (renderErrorSeq s.config) = errEvents s := by
  unfold renderErrorSeq errEvents
  simp only [eventsOf_append]
  rw [eventsOf_drawGlyph s 1 (key := keyE) (by decide), eventsOf_drawGlyph s 2 (key := keyR) (by decide),
    eventsOf_drawGlyph s 3 (key := keyR) (by decide)]
  rfl

theorem eventsOf_renderStateSeq (s : State) (flag : Bool) :
    eventsOf s (renderStateSeq s.config flag) = if flag then onEvents s else offEvents s := by
  unfold renderStateSeq onEvents offEvents
  simp only [eventsOf_append]
  rw [eventsOf_drawGlyph s 1 (key := keyO) (by decide)]
  cases flag
  · simp only [Bool.false_eq_true, if_false, eventsOf_append]
    rw [eventsOf_drawGlyph s 2 (key := keyF) (by decide), eventsOf_drawGlyph s 3 (key := keyF) (by decide)]
    simp [keyO, keyF]
  · simp only [if_true]
    rw [eventsOf_drawGlyph s 2 (key := keyN) (by decide)]
    simp [keyO, keyN]

theorem eventsOf_clearSeq (s : State) : eventsOf s (clearSeq s.config) = clearEvents s := rfl

/-- A command's calls, made with every bound pin configured, complete it (R63). -/
theorem complete_runActions {s : State} (hs : BoundConfigured s) (i : Instr) {as : List Action} (ha : AllCalls as) :
    complete i (runActions as s) = .next (s.emitted (eventsOf s as) i.frameLen) := by
  rw [runActions_of_boundConfigured hs ha, complete_done, State.withEvents_spc, State.withEvents_spc_emitted]
  rfl

end Sys2Proof.Machine
end

