-- ==== Sys2Proof/Laws/Step.lean ====
section
/-! SUPPORT. Each command's meaning under R26, everything a command and a step can do, and when a step runs. -/

namespace Sys2Proof.Machine

theorem execRenderError_of_boundConfigured {s : State} (hs : BoundConfigured s) :
    execRenderError s = .next (s.emitted (errEvents s) 1) := by
  rw [execRenderError, complete_runActions hs _ (allCalls_renderErrorSeq _), eventsOf_renderErrorSeq]
  rfl

theorem execClear_of_boundConfigured {s : State} (hs : BoundConfigured s) :
    execClear s = .next (s.emitted (clearEvents s) 1) := by
  rw [execClear, complete_runActions hs _ (allCalls_clearSeq _), eventsOf_clearSeq]
  rfl

theorem execSelectDigit_of_boundConfigured {s : State} (hs : BoundConfigured s) (slot : Byte) :
    execSelectDigit slot s = .next (s.emitted (selectEvents s slot.toNat) 2) := by
  rw [execSelectDigit, complete_runActions hs _ (allCalls_selectDigit _ _), eventsOf_selectDigit]
  rfl

theorem execRenderState_of_flag {s : State} (hs : BoundConfigured s) {flag : Byte} {b : Bool}
    (hf : flagOf flag = some b) :
    execRenderState flag s = .next (s.emitted (if b then onEvents s else offEvents s) 2) := by
  rw [execRenderState, hf]
  simp only
  rw [complete_runActions hs _ (allCalls_renderStateSeq _ _), eventsOf_renderStateSeq]
  rfl

theorem execRenderState_of_reserved (s : State) {flag : Byte} (hf : flagOf flag = none) :
    execRenderState flag s = .next (raiseFault .reservedOperand 0x02#8 s) := by
  rw [execRenderState, hf]
  rfl

theorem execRenderValue_of_invalid {s : State} (hs : BoundConfigured s) {req : List Byte} (hl : req.length ≤ 255)
    (hv : valid req = false) :
    execRenderValue req s = .next (s.emitted (errEvents s) (2 + req.length)) := by
  rw [execRenderValue, if_pos hl, hv]
  simp only [Bool.false_eq_true, if_false]
  rw [complete_runActions hs _ (allCalls_renderErrorSeq _), eventsOf_renderErrorSeq]
  rfl

theorem execRenderValue_of_valid {s : State} (hs : BoundConfigured s) {req : List Byte} (hl : req.length ≤ 255)
    (hv : valid req = true) :
    execRenderValue req s = .next (s.emitted (eventsOf s (renderDigits s.config 1 req)) (2 + req.length)) := by
  rw [execRenderValue, if_pos hl, hv]
  simp only [if_true]
  rw [complete_runActions hs _ (allCalls_renderDigits _ _ _)]
  rfl

/-- A setter is its common body and the end of the command (R130, R132 to R143). -/
theorem exec_setter (r : Role) (b : Byte) (s : State) :
    exec (setter r b) s = complete (setter r b) (setRole r (pinOf b) s) := by
  cases r <;> rfl

theorem frameLen_setter (r : Role) (b : Byte) : (setter r b).frameLen = 2 := by cases r <;> rfl

theorem exec_setter_of_valid {s : State} {b : Byte} (h : s.config.pinValid (pinOf b) = true) (r : Role) :
    exec (setter r b) s = .next ((s.emitted [.cfg (pinOf b)] 2).setBinding r (pinOf b)) := by
  rw [exec_setter, setRole_of_valid h, complete_done, frameLen_setter]
  rfl

theorem exec_setter_of_invalid {s : State} {b : Byte} (h : s.config.pinValid (pinOf b) = false) (r : Role) :
    exec (setter r b) s = .next (raiseFault .invalidPin (setter r b).opcode s) := by
  rw [exec_setter, setRole_of_invalid h, complete_raised]

/-- Every command is one of the five operations or a setter (R65). -/
theorem instr_cases (i : Instr) :
    (∃ req, i = .renderValue req) ∨ (∃ flag, i = .renderState flag) ∨ i = .renderError ∨ i = .clear ∨
      (∃ slot, i = .selectDigit slot) ∨ ∃ r p, i = setter r p := by
  cases i <;> simp only [reduceCtorEq, exists_false, false_or, Instr.renderValue.injEq,
    Instr.renderState.injEq, Instr.selectDigit.injEq, exists_eq', true_or, or_true]
  case setSegA p => exact ⟨.segA, p, rfl⟩
  case setSegB p => exact ⟨.segB, p, rfl⟩
  case setSegC p => exact ⟨.segC, p, rfl⟩
  case setSegD p => exact ⟨.segD, p, rfl⟩
  case setSegE p => exact ⟨.segE, p, rfl⟩
  case setSegF p => exact ⟨.segF, p, rfl⟩
  case setSegG p => exact ⟨.segG, p, rfl⟩
  case setDp p => exact ⟨.dp, p, rfl⟩
  case setDig1 p => exact ⟨.dig1, p, rfl⟩
  case setDig2 p => exact ⟨.dig2, p, rfl⟩
  case setDig3 p => exact ⟨.dig3, p, rfl⟩
  case setDig4 p => exact ⟨.dig4, p, rfl⟩

/-- The end of a command that made primitive calls, in any state. -/
theorem complete_runActions_cases (i : Instr) (as : List Action) (s : State) :
    ∃ evs, (∀ e ∈ evs, SequencerEvent s e) ∧
      (complete i (runActions as s) = .next (s.emitted evs i.frameLen) ∨
        ∃ code, complete i (runActions as s) = .next (raiseFault code i.opcode (s.withEvents evs))) := by
  obtain ⟨evs, hev, h | ⟨code, h⟩⟩ := runActions_cases as s
  · exact ⟨evs, hev, .inl (by rw [h, complete_done, State.withEvents_spc, State.withEvents_spc_emitted])⟩
  · exact ⟨evs, hev, .inr ⟨code, by rw [h, complete_raised]⟩⟩

/-- A command that completes without configuring a pin. -/
def SequencerEffect (i : Instr) (s t : State) : Prop :=
  ∃ evs, (∀ e ∈ evs, SequencerEvent s e) ∧ (∀ r p, i ≠ setter r p) ∧ t = s.emitted evs i.frameLen

/-- A setter that completes. -/
def SetterEffect (i : Instr) (s t : State) : Prop :=
  ∃ r b, i = setter r b ∧ s.config.pinValid (pinOf b) = true ∧
    t = (s.emitted [.cfg (pinOf b)] 2).setBinding r (pinOf b)

/-- A command that faults, after some sequencer events. -/
def FaultEffect (i : Instr) (s t : State) : Prop :=
  ∃ evs code, (∀ e ∈ evs, SequencerEvent s e) ∧ t = raiseFault code i.opcode (s.withEvents evs)

/-- The two faults a command can raise while every bound pin is configured, both before any event (R153, R154). -/
def OperandFaultEffect (i : Instr) (s t : State) : Prop :=
  (∃ flag, i = .renderState flag ∧ flagOf flag = none ∧ t = raiseFault .reservedOperand i.opcode s) ∨
  ∃ r b, i = setter r b ∧ s.config.pinValid (pinOf b) = false ∧ t = raiseFault .invalidPin i.opcode s

theorem ne_setter {i : Instr} (h : ∀ p, i ≠ .setSegA p ∧ i ≠ .setSegB p ∧ i ≠ .setSegC p ∧ i ≠ .setSegD p ∧
    i ≠ .setSegE p ∧ i ≠ .setSegF p ∧ i ≠ .setSegG p ∧ i ≠ .setDp p ∧ i ≠ .setDig1 p ∧ i ≠ .setDig2 p ∧
    i ≠ .setDig3 p ∧ i ≠ .setDig4 p) (r : Role) (p : Byte) : i ≠ setter r p := by
  have := h p
  cases r <;> simp_all [setter]

theorem effect_of_runActions {i : Instr} {as : List Action} {s t : State} (hi : ∀ r p, i ≠ setter r p)
    (h : complete i (runActions as s) = .next t) : SequencerEffect i s t ∨ FaultEffect i s t := by
  obtain ⟨evs, hev, h1 | ⟨code, h1⟩⟩ := complete_runActions_cases i as s
  · exact .inl ⟨evs, hev, hi, Host.Outcome.next.inj (h.symm.trans h1)⟩
  · exact .inr ⟨evs, code, hev, Host.Outcome.next.inj (h.symm.trans h1)⟩

/-- Everything a command can do, in any state. -/
theorem exec_cases {i : Instr} {s t : State} (h : exec i s = .next t) :
    SequencerEffect i s t ∨ SetterEffect i s t ∨ FaultEffect i s t := by
  rcases instr_cases i with ⟨req, rfl⟩ | ⟨flag, rfl⟩ | rfl | rfl | ⟨slot, rfl⟩ | ⟨r, p, rfl⟩
  · by_cases hl : req.length ≤ 255
    · have h' := effect_of_runActions (i := .renderValue req)
        (as := if valid req then renderDigits s.config 1 req else renderErrorSeq s.config) (ne_setter (by simp))
        (by simpa only [exec, execRenderValue, if_pos hl] using h)
      exact h'.imp_right .inr
    · simp [exec, execRenderValue, hl] at h
  · cases hf : flagOf flag with
    | none =>
      refine .inr (.inr ⟨[], .reservedOperand, by simp, ?_⟩)
      simpa [Instr.opcode] using Host.Outcome.next.inj (h.symm.trans (execRenderState_of_reserved s hf))
    | some b =>
      have h' := effect_of_runActions (i := .renderState flag) (as := renderStateSeq s.config b) (ne_setter (by simp))
        (by simpa [exec, execRenderState, hf] using h)
      exact h'.imp_right .inr
  · exact (effect_of_runActions (ne_setter (by simp)) h).imp_right .inr
  · exact (effect_of_runActions (ne_setter (by simp)) h).imp_right .inr
  · exact (effect_of_runActions (ne_setter (by simp)) h).imp_right .inr
  · cases hv : s.config.pinValid (pinOf p) with
    | true => exact .inr (.inl ⟨r, p, rfl, hv, Host.Outcome.next.inj (h.symm.trans (exec_setter_of_valid hv r))⟩)
    | false =>
      refine .inr (.inr ⟨[], .invalidPin, by simp, ?_⟩)
      simpa using Host.Outcome.next.inj (h.symm.trans (exec_setter_of_invalid hv r))

theorem sequencerEffect_of_eq {i : Instr} {s t : State} {evs : List Event} {as : List Action}
    (hi : ∀ r p, i ≠ setter r p) (he : evs = eventsOf s as) (h : exec i s = .next t)
    (h' : exec i s = .next (s.emitted evs i.frameLen)) : SequencerEffect i s t := by
  refine ⟨evs, fun e hm => ?_, hi, Host.Outcome.next.inj (h.symm.trans h')⟩
  rw [he] at hm
  obtain ⟨a, -, ha⟩ := List.mem_flatMap.1 hm
  exact Action.sequencerEvent_of_mem ha

/-- Everything a command can do while every bound pin is configured (R26, R154). -/
theorem exec_cases_of_boundConfigured {i : Instr} {s t : State} (hs : BoundConfigured s) (h : exec i s = .next t) :
    SequencerEffect i s t ∨ SetterEffect i s t ∨ OperandFaultEffect i s t := by
  rcases instr_cases i with ⟨req, rfl⟩ | ⟨flag, rfl⟩ | rfl | rfl | ⟨slot, rfl⟩ | ⟨r, p, rfl⟩
  · by_cases hl : req.length ≤ 255
    · cases hv : valid req with
      | true => exact .inl (sequencerEffect_of_eq (ne_setter (by simp)) rfl h (execRenderValue_of_valid hs hl hv))
      | false =>
        exact .inl (sequencerEffect_of_eq (ne_setter (by simp)) (eventsOf_renderErrorSeq s).symm h
          (execRenderValue_of_invalid hs hl hv))
    · simp [exec, execRenderValue, hl] at h
  · cases hf : flagOf flag with
    | none =>
      exact .inr (.inr (.inl ⟨flag, rfl, hf,
        Host.Outcome.next.inj (h.symm.trans (execRenderState_of_reserved s hf))⟩))
    | some b =>
      exact .inl (sequencerEffect_of_eq (ne_setter (by simp)) (eventsOf_renderStateSeq s b).symm h
        (execRenderState_of_flag hs hf))
  · exact .inl (sequencerEffect_of_eq (ne_setter (by simp)) (eventsOf_renderErrorSeq s).symm h
      (execRenderError_of_boundConfigured hs))
  · exact .inl (sequencerEffect_of_eq (ne_setter (by simp)) (eventsOf_clearSeq s).symm h
      (execClear_of_boundConfigured hs))
  · exact .inl (sequencerEffect_of_eq (ne_setter (by simp)) (eventsOf_selectDigit s _).symm h
      (execSelectDigit_of_boundConfigured hs slot))
  · cases hv : s.config.pinValid (pinOf p) with
    | true => exact .inr (.inl ⟨r, p, rfl, hv, Host.Outcome.next.inj (h.symm.trans (exec_setter_of_valid hv r))⟩)
    | false =>
      exact .inr (.inr (.inr ⟨r, p, rfl, hv, Host.Outcome.next.inj (h.symm.trans (exec_setter_of_invalid hv r))⟩))

/-- When a step exists, what it is (R63). -/
theorem step_cases {s t : State} (h : step s = .next t) :
    s.fault = none ∧
      ((∃ op, fetch s = .undefinedOpcode op ∧ t = raiseFault .undefinedOpcode op s) ∨
        ∃ i rest, fetch s = .frame i rest ∧ exec i s = .next t) := by
  unfold step at h
  cases hf : s.fault with
  | some code => simp [hf] at h
  | none =>
    refine ⟨rfl, ?_⟩
    cases hd : fetch s with
    | incomplete => simp [hf, hd] at h
    | undefinedOpcode op => exact .inl ⟨op, rfl, by simpa [hf, hd, eq_comm] using h⟩
    | frame i rest => exact .inr ⟨i, rest, rfl, by simpa [hf, hd] using h⟩

end Sys2Proof.Machine
end

