-- ==== Sys2Proof/Machine/Assembler.lean ====
section
/-! DEFINITION. The assembler syntax of R69: one line of text to the bytes of its frame, or to raw bytes. It is a
notation for streams (D32) and no part of a step. -/

namespace Sys2Proof

/-- The digits of the `HH` of R69, each at the place of its value. -/
def hexDigits : List Char := "0123456789ABCDEF".toList

/-- The value of one digit of `HH`: its place among the digits (log 25 for the letters' case). -/
def hexDigit (c : Char) : Option Nat := hexDigits.findIdx? fun d => d = c.toUpper

/-- Two hexadecimal digits as a byte. -/
def hexByte (h l : Char) : Option Byte :=
  match hexDigit h, hexDigit l with
  | some a, some b => some (BitVec.ofNat 8 (16 * a + b))
  | _, _ => none

/-- Decimal digits from a value on, refusing what is no digit. -/
def decimalFrom (v : Nat) : List Char → Option Nat
  | [] => some v
  | c :: rest =>
    match (hexDigits.take 10).findIdx? fun d => d = c with
    | some n => decimalFrom (10 * v + n) rest
    | none => none

/-- A decimal operand from 0 to 255. -/
def decimalByte (token : List Char) : Option Byte :=
  match token with
  | [] => none
  | _ =>
    match decimalFrom 0 token with
    | some v => if v ≤ 255 then some (BitVec.ofNat 8 v) else none
    | none => none

/-- A `0xHH` operand. -/
def prefixedByte : List Char → Option Byte
  | ['0', 'x', h, l] => hexByte h l
  | _ => none

/-- `<flag>`: `true`, `false` or a byte `0xHH`. -/
def flagOperand (token : List Char) : Option Byte :=
  if token = "true".toList then some 0x01#8
  else if token = "false".toList then some 0x00#8
  else prefixedByte token

/-- The characters of `"<chars>"` after the opening quote, up to the closing one, and the text after it: `\xHH` is a
byte, `\\` a backslash, any other ASCII character itself. -/
def quotedBytes : List Char → Option (List Byte × List Char)
  | [] => none
  | '"' :: rest => some ([], rest)
  | '\\' :: 'x' :: h :: l :: rest =>
    match hexByte h l, quotedBytes rest with
    | some b, some (bs, tail) => some (b :: bs, tail)
    | _, _ => none
  | '\\' :: '\\' :: rest =>
    match quotedBytes rest with
    | some (bs, tail) => some (0x5C#8 :: bs, tail)
    | none => none
  | c :: rest =>
    if c = '\\' then none
    else if c.toNat < 128 then
      match quotedBytes rest with
      | some (bs, tail) => some (BitVec.ofNat 8 c.toNat :: bs, tail)
      | none => none
    else none

/-- The text after leading blanks. -/
def skipBlanks : List Char → List Char
  | ' ' :: rest => skipBlanks rest
  | cs => cs

/-- A line's end: nothing, or a comment. -/
def atEnd (cs : List Char) : Bool :=
  match skipBlanks cs with
  | [] => true
  | ';' :: _ => true
  | _ => false

/-- The next token, up to a blank, a comma or a comment, and the text after it. -/
def token : List Char → List Char × List Char
  | [] => ([], [])
  | c :: rest =>
    if c = ' ' ∨ c = ',' ∨ c = ';' then ([], c :: rest)
    else (c :: (token rest).1, (token rest).2)

/-- One operand and the end of the line. -/
def oneOperand (read : List Char → Option Byte) (cs : List Char) : Option Byte :=
  if atEnd (token (skipBlanks cs)).2 then read (token (skipBlanks cs)).1 else none

/-- The bytes of `.byte 0xHH[, 0xHH...]`; `fuel` bounds their number. -/
def byteList : Nat → List Char → Option (List Byte)
  | 0, _ => none
  | fuel + 1, cs =>
    match prefixedByte (token (skipBlanks cs)).1, skipBlanks (token (skipBlanks cs)).2 with
    | some b, ',' :: rest => (byteList fuel rest).map (b :: ·)
    | some b, rest => if atEnd rest then some [b] else none
    | none, _ => none

/-- The mnemonics with one byte operand and no form of their own (R65, R69). -/
def byteCommands : List (String × (Byte → Instr)) :=
  [("SET_SEG_A", .setSegA), ("SET_SEG_B", .setSegB), ("SET_SEG_C", .setSegC), ("SET_SEG_D", .setSegD),
   ("SET_SEG_E", .setSegE), ("SET_SEG_F", .setSegF), ("SET_SEG_G", .setSegG), ("SET_DP", .setDp),
   ("SET_DIG1", .setDig1), ("SET_DIG2", .setDig2), ("SET_DIG3", .setDig3), ("SET_DIG4", .setDig4),
   ("SELECT_DIGIT", .selectDigit)]

/-- The request of a RENDER_VALUE line, with the end of the line checked. -/
def requestOperand (cs : List Char) : Option (List Byte) :=
  match skipBlanks cs with
  | '"' :: rest =>
    match quotedBytes rest with
    | some (bs, tail) => if atEnd tail && decide (bs.length ≤ 255) then some bs else none
    | none => none
  | _ => none

/-- One line of assembler text as the bytes it stands for (R69); an empty line or a comment stands for none. -/
def assemble (line : String) : Option (List Byte) :=
  let cs := skipBlanks line.toList
  let name := String.ofList (token cs).1
  let rest := (token cs).2
  if atEnd cs then some []
  else if name = "RENDER_VALUE" then (requestOperand rest).map fun req => encode (.renderValue req)
  else if name = "RENDER_STATE" then (oneOperand flagOperand rest).map fun b => encode (.renderState b)
  else if name = "RENDER_ERROR" then if atEnd rest then some (encode .renderError) else none
  else if name = "CLEAR" then if atEnd rest then some (encode .clear) else none
  else if name = ".byte" then byteList rest.length rest
  else
    match byteCommands.lookup name with
    | some mk => (oneOperand decimalByte rest).map fun b => encode (mk b)
    | none => none

end Sys2Proof
end

