-- ==== Sys2Proof/Tests/Slice0.lean ====
section
/-! SUPPORT. Tests against the spec's own tables and vectors (spec/95_test_vectors.md; V<n>, E<n> below are its), the
well-formedness smoke, and a witness for the hypotheses of each statement. -/

namespace Sys2Proof.Tests

open Sys2Proof Sys2Proof.Machine

/-- Reset with TEST_PINS and the default parameters, with the given bytes sent (S0 of the vectors). -/
def boot (bs : List Byte) : State := State.resetWith Config.default bs

/-- The same under DRIFT. -/
def bootDrift (bs : List Byte) : State := State.resetWith { Config.default with dpSlotPolicy := .drift } bs

/-- `PIN_VALID(p) = (p < 64)`, as V75 and V76 take it. -/
def small : Config := { Config.default with absentPins := (List.range 192).map fun k => 64 + k }

/-- The state after a step, or `s` where there is none. -/
def after (s : State) : State :=
  match step s with
  | .next t => t
  | .fault _ => s
  | .refused _ => s

/-- The events of the step from `s`. -/
def events (s : State) : List Event := (after s).gpio.trace.drop s.gpio.trace.length

/-- The levels of the pins bound to DIG1 to DIG4, and of DP. -/
def ends (s : State) : List (Option Level) :=
  [s.roleLevel .dig1, s.roleLevel .dig2, s.roleLevel .dig3, s.roleLevel .dig4, s.roleLevel .dp]

/-- `W(p, H)`. -/
def hi (p : Nat) : Event := .w p .high

/-- `W(p, L)`. -/
def lo (p : Nat) : Event := .w p .low

/-! Decoding: a word of each row of the opcode map, written out from R61 and R65. -/

theorem test_decode_renderValue :
    decode [0x01#8, 0x03#8, 0x31#8, 0x2E#8, 0x39#8, 0x04#8] = .frame (.renderValue [0x31#8, 0x2E#8, 0x39#8]) [0x04#8] := by
  decide
theorem test_decode_renderState : decode [0x02#8, 0x80#8] = .frame (.renderState 0x80#8) [] := by decide
theorem test_decode_renderError : decode [0x03#8, 0x01#8] = .frame .renderError [0x01#8] := by decide
theorem test_decode_clear : decode [0x04#8] = .frame .clear [] := by decide
theorem test_decode_selectDigit : decode [0x05#8, 0x03#8] = .frame (.selectDigit 0x03#8) [] := by decide
theorem test_decode_setSegA : decode [0x10#8, 0x14#8] = .frame (.setSegA 20#8) [] := by decide
theorem test_decode_setSegB : decode [0x11#8, 0x15#8] = .frame (.setSegB 21#8) [] := by decide
theorem test_decode_setSegC : decode [0x12#8, 0x16#8] = .frame (.setSegC 22#8) [] := by decide
theorem test_decode_setSegD : decode [0x13#8, 0x17#8] = .frame (.setSegD 23#8) [] := by decide
theorem test_decode_setSegE : decode [0x14#8, 0x18#8] = .frame (.setSegE 24#8) [] := by decide
theorem test_decode_setSegF : decode [0x15#8, 0x19#8] = .frame (.setSegF 25#8) [] := by decide
theorem test_decode_setSegG : decode [0x16#8, 0x1A#8] = .frame (.setSegG 26#8) [] := by decide
theorem test_decode_setDp : decode [0x17#8, 0x1B#8] = .frame (.setDp 27#8) [] := by decide
theorem test_decode_setDig1 : decode [0x18#8, 0x1C#8] = .frame (.setDig1 28#8) [] := by decide
theorem test_decode_setDig2 : decode [0x19#8, 0x1D#8] = .frame (.setDig2 29#8) [] := by decide
theorem test_decode_setDig3 : decode [0x1A#8, 0x1E#8] = .frame (.setDig3 30#8) [] := by decide
theorem test_decode_setDig4 : decode [0x1B#8, 0x1F#8] = .frame (.setDig4 31#8) [] := by decide

/-- V77 to V81: the reserved OPs at the edges of the map. -/
theorem test_decode_reserved :
    [0x00#8, 0x06#8, 0x0F#8, 0x1C#8, 0xFF#8].map (fun op => decode [op, 0x00#8]) =
      [0x00#8, 0x06#8, 0x0F#8, 0x1C#8, 0xFF#8].map Decoded.undefinedOpcode := by decide

/-- V83 to V85. -/
theorem test_decode_waits :
    [[0x01#8], [0x01#8, 0x03#8, 0x31#8], [0x02#8]].map decode = [.incomplete, .incomplete, .incomplete] := by decide

/-- The opcode table's numbering: OP is the low byte, the operand the next. -/
theorem test_table_word :
    decodeTableWord 8 0x01 = some (.renderValue []) ∧ decodeTableWord 16 0x1418 = some (.setDig1 20#8) ∧
    decodeTableWord 8 0x1418 = some (.setDig1 0#8) ∧ decodeTableWord 8 0x1C = none := by decide

/-- A table word stored after reset is what the first step runs. -/
theorem test_withFetchWord_runs :
    step (State.reset.withFetchWord 16 0x0305) = exec (.selectDigit 3#8) (State.reset.withFetchWord 16 0x0305) := rfl

/-! Well-formedness: its one check refuses a request of 256 characters and passes one of 255. -/

theorem test_wellFormed_refuses_256 : (Instr.renderValue (List.replicate 256 0x31#8)).wellFormed = false := by
  rw [Instr.wellFormed, List.length_replicate]; decide
theorem test_wellFormed_accepts_255 : (Instr.renderValue (List.replicate 255 0x31#8)).wellFormed = true := by
  rw [Instr.wellFormed, List.length_replicate]; decide

/-! The commands, on the vectors. -/

/-- V1 to V19. -/
theorem test_validator_passes :
    ([[], [0x2E#8], [0x2E#8, 0x31#8], [0x31#8, 0x2E#8], [0x31#8, 0x32#8, 0x33#8, 0x34#8],
      [0x31#8, 0x2E#8, 0x32#8, 0x2E#8, 0x33#8, 0x2E#8, 0x34#8, 0x2E#8],
      [0x2E#8, 0x31#8, 0x2E#8, 0x32#8, 0x2E#8, 0x33#8, 0x2E#8, 0x34#8]].map valid).all id = true := by decide
theorem test_validator_fails :
    ([[0x2E#8, 0x2E#8], [0x31#8, 0x2E#8, 0x2E#8, 0x32#8], [0x31#8, 0x32#8, 0x33#8, 0x34#8, 0x35#8],
      [0x2E#8, 0x31#8, 0x2E#8, 0x32#8, 0x2E#8, 0x33#8, 0x2E#8, 0x34#8, 0x2E#8], [0x2D#8, 0x31#8],
      [0x31#8, 0x20#8, 0x32#8], [0x00#8], [0xB9#8], [0x2F#8], [0x3A#8]].map valid).any id = false := by decide

/-- E6, V33 and V34: "12.5" puts '5' in slot 3 under NET_ZERO and in slot 4 under DRIFT; the events are P1's. -/
theorem test_renderValue_netZero :
    events (boot [0x01#8, 0x04#8, 0x31#8, 0x32#8, 0x2E#8, 0x35#8]) =
      [lo 11, lo 12, lo 13, hi 10, hi 9, hi 2, lo 3, lo 4, hi 5, hi 6, hi 7, hi 8, .h 1,
       lo 10, lo 12, lo 13, hi 11, hi 9, lo 2, lo 3, hi 4, lo 5, lo 6, hi 7, lo 8, .h 1,
       lo 10, lo 12, lo 13, hi 11, lo 9, .h 1,
       lo 10, lo 11, lo 13, hi 12, hi 9, lo 2, hi 3, lo 4, lo 5, hi 6, lo 7, lo 8, .h 1] := by decide
theorem test_renderValue_drift :
    ends (after (bootDrift [0x01#8, 0x04#8, 0x31#8, 0x32#8, 0x2E#8, 0x35#8])) =
      [some .low, some .low, some .low, some .high, some .high] := by decide

/-- V45 and V46. -/
theorem test_renderState_on :
    events (boot [0x02#8, 0x01#8]) =
      [lo 11, lo 12, lo 13, hi 10, lo 9, lo 2, lo 3, lo 4, lo 5, lo 6, lo 7, hi 8, .h 1,
       lo 10, lo 12, lo 13, hi 11, hi 9, hi 2, hi 3, lo 4, hi 5, lo 6, hi 7, lo 8, .h 1] := by decide
theorem test_renderState_off :
    (events (boot [0x02#8, 0x00#8])).drop 13 =
      [lo 10, lo 12, lo 13, hi 11, hi 9, lo 2, hi 3, hi 4, hi 5, lo 6, lo 7, lo 8, .h 1,
       lo 10, lo 11, lo 13, hi 12, hi 9, lo 2, hi 3, hi 4, hi 5, lo 6, lo 7, lo 8, .h 1] := by decide

/-- V48: a reserved FLAG right after reset. -/
theorem test_renderState_reserved :
    let t := after (boot [0x02#8, 0xFF#8])
    (t.fault, t.faultAt, t.faultOp, t.spc, t.gpio.trace.length) =
      (some .reservedOperand, some 0, some 0x02#8, 0, 12) := by decide

/-- V50. -/
theorem test_renderError :
    events (boot [0x03#8]) =
      [lo 11, lo 12, lo 13, hi 10, hi 9, lo 2, hi 3, hi 4, lo 5, lo 6, lo 7, lo 8, .h 1,
       lo 10, lo 12, lo 13, hi 11, hi 9, hi 2, hi 3, hi 4, hi 5, lo 6, hi 7, lo 8, .h 1,
       lo 10, lo 11, lo 13, hi 12, hi 9, hi 2, hi 3, hi 4, hi 5, lo 6, hi 7, lo 8, .h 1] := by decide

/-- V52. -/
theorem test_clear : events (boot [0x04#8]) = [lo 10, lo 11, lo 12, lo 13] := by decide

/-- V57 and V59. -/
theorem test_selectDigit : events (boot [0x05#8, 0x03#8]) = [lo 10, lo 11, lo 13, hi 12] := by decide
theorem test_selectDigit_outside :
    ([0x00#8, 0x05#8, 0xFF#8].map fun n => (events (boot [0x05#8, n]), (after (boot [0x05#8, n])).spc)) =
      [([], 2), ([], 2), ([], 2)] := by decide

/-- V61 to V72: each setter emits `Cfg(20 + r)`, binds role r to pin 20 + r, and no other role. -/
theorem test_setters :
    (Role.all.map fun r =>
      let n := r.num.val
      let s := boot [BitVec.ofNat 8 (0x10 + n), BitVec.ofNat 8 (0x14 + n)]
      decide (events s = [Event.cfg (20 + n)] ∧
        ∀ q ∈ Role.all, (after s).binding q = (if q = r then 20 else 2) + q.num.val)).all id = true := by
  decide

/-- V74: the pin of a role set again loses its known level. -/
theorem test_setDig1_same_pin :
    let s := after { boot [0x05#8, 0x01#8, 0x18#8, 0x0A#8] with spc := 0 }
    (s.roleLevel .dig1, (after s).roleLevel .dig1) = (some .high, none) := by decide

/-- V75 and V76. -/
theorem test_setSegA_invalid_pin :
    let t := after (State.resetWith small [0x10#8, 0xC8#8])
    (t.fault, t.faultAt, t.faultOp, t.spc, t.binding .segA) =
      (some .invalidPin, some 0, some 0x10#8, 0, 2) := by decide
theorem test_reset_invalid_pin :
    let s := State.resetWith { small with defaultPins := testPins.set 11 99 } [0x04#8]
    (s.fault, s.faultAt, s.faultOp, s.gpio.trace.length) = (some .invalidPin, none, none, 11) := by decide

/-- A pin space of 4 bits: pin 15 is the last. -/
theorem test_pinIdWidth :
    let c := { Config.default with pinIdWidth := 4 }
    ((after (State.resetWith c [0x10#8, 0x0F#8])).binding .segA, (after (State.resetWith c [0x10#8, 0x10#8])).fault) =
      (15, some .invalidPin) := by decide

/-- A board with the point lit at HIGH and enables active at LOW draws with the levels swapped. -/
theorem test_levels_are_parameters :
    ends (after (State.resetWith { Config.default with dpLit := .high, enActive := .low } [0x03#8])) =
      [some .high, some .high, some .low, some .high, some .low] := by decide

/-- Table G, the column for `SEG_LIT_LEVEL` = HIGH, row DIGIT_7 (V30). -/
theorem test_segLit_high :
    ((events (State.resetWith { Config.default with segLit := .high } [0x01#8, 0x01#8, 0x37#8])).drop 5).take 7 =
      [hi 2, hi 3, hi 4, lo 5, lo 6, lo 7, lo 8] := by decide

/-- R151's numbers. -/
theorem test_fault_numbers :
    [FaultCode.undefinedOpcode, .reservedOperand, .invalidPin, .undefinedGlyphKey, .unconfiguredPinWrite].map
      FaultCode.number = [1, 2, 3, 4, 5] := by decide

/-- R69, on lines of P1, P2 and P4 and on the escapes. -/
theorem test_assemble :
    ["RENDER_VALUE \"12.5\"", "SET_DIG1 20 ; rebind", "RENDER_STATE 0x02", "  CLEAR", ".byte 0x20, 0x04",
     "RENDER_VALUE \"\\xB9\\\\\"", "; nothing", "SELECT_DIGIT 256"].map assemble =
      [some [0x01#8, 0x04#8, 0x31#8, 0x32#8, 0x2E#8, 0x35#8], some [0x18#8, 0x14#8], some [0x02#8, 0x02#8],
       some [0x04#8], some [0x20#8, 0x04#8], some [0x01#8, 0x02#8, 0xB9#8, 0x5C#8], some [], none] := by decide

/-! Witnesses: for each statement with hypotheses, a concrete case that meets them all. -/

/-- A state whose enable levels are known: after a CLEAR. -/
def cleared (bs : List Byte) : State := after (boot (0x04#8 :: bs))

theorem witness_ResetLeavesSpecValues : ∀ r, Config.default.pinValid (Config.default.defaultPin r) = true :=
  fun r => by cases r <;> decide

/-- The last role and the first. -/
theorem witness_ResetHaltsAtFirstInvalidDefaultPin :
    (let c := { Config.default with absentPins := [13] }
     Role.all = Role.all.take 11 ++ .dig4 :: [] ∧
      (∀ q ∈ Role.all.take 11, c.pinValid (c.defaultPin q) = true) ∧ c.pinValid (c.defaultPin .dig4) = false) ∧
    (let c := { Config.default with absentPins := [2] }
     Role.all = [] ++ .segA :: Role.all.drop 1 ∧ c.pinValid (c.defaultPin .segA) = false) := by decide

theorem witness_StepRunsDecodedCommand :
    (boot [0x05#8, 0x01#8, 0x04#8]).fault = none ∧ (Instr.selectDigit 1#8).wellFormed = true ∧
    (boot [0x05#8, 0x01#8, 0x04#8]).stream.drop 0 = encode (.selectDigit 1#8) ++ [0x04#8] := by decide

/-- A request one character short, and no byte at all. -/
theorem witness_PartialFrameHasNoStep :
    ((boot [0x01#8, 0x02#8, 0x31#8]).fault = none ∧ (Instr.renderValue [0x31#8, 0x32#8]).wellFormed = true ∧
      (boot [0x01#8, 0x02#8, 0x31#8]).stream.drop 0 <+: encode (.renderValue [0x31#8, 0x32#8]) ∧
      (boot [0x01#8, 0x02#8, 0x31#8]).stream.drop 0 ≠ encode (.renderValue [0x31#8, 0x32#8])) ∧
    ((boot []).stream.drop 0 <+: encode .clear ∧ (boot []).stream.drop 0 ≠ encode .clear) := by decide

/-- The edges of the three reserved ranges. -/
theorem witness_ReservedOpcodeFaults :
    ∀ op ∈ [0x00#8, 0x06#8, 0x0F#8, 0x1C#8, 0xFF#8], (boot [op]).fault = none ∧ (boot [op]).stream.drop 0 = op :: [] ∧
      (op = 0x00#8 ∨ (0x06#8 ≤ op ∧ op ≤ 0x0F#8) ∨ 0x1C#8 ≤ op) := by decide

theorem witness_HaltedBlockHasNoStep : (after (boot [0x00#8])).fault = some .undefinedOpcode := by decide

theorem witness_DecodeOfEncodeIsTheCommand :
    (Instr.renderValue (List.replicate 255 0x39#8)).wellFormed = true ∧ (Instr.setDig4 0xFF#8).wellFormed = true := by
  rw [Instr.wellFormed, List.length_replicate]; decide

theorem witness_DecodedFrameIsTheEncoding : decode [0x01#8, 0x00#8] = .frame (.renderValue []) [] := by decide

theorem witness_SetterOpcodeNamesTheRole : 0xC ≤ 0xC ∧ 0xC ≤ 0xF ∧ 0xF ≤ 0xF := by decide

theorem witness_LaterBytesDoNotChangeAStep : ∃ s t, step s = .next t := ⟨boot [0x04#8], _, rfl⟩

theorem witness_LongRequestsFail : 8 < (List.replicate 9 0x31#8).length := by decide

theorem witness_LutReadsItsKeysOnly : 15 ≤ 15 := by decide

/-- The hypothesis that every bound pin is configured, which the statements of the primitives and of the commands share
(SegmentDriveWritesSevenLines, PointAttachesToThePreviousSlot, SlotDrawSelectsDrivesHolds, RenderErrorDrawsErr,
ClearDeactivatesEveryEnable, ClearTwiceIsClearOnce, HoldsPerCommand, LeadingPointSelectsNothing). -/
theorem witness_BoundConfigured : BoundConfigured (boot []) ∧ BoundConfigured (cleared []) := by decide

theorem witness_SelectDeactivatesThenActivates :
    BoundConfigured (boot []) ∧ (1 : Int) ≤ 1 ∧ (1 : Int) ≤ 4 ∧ (1 : Int) ≤ 4 ∧ (4 : Int) ≤ 4 := by decide

theorem witness_SelectOutsideOneToFourDoesNothing : ((0 : Int) < 1 ∨ 4 < (0 : Int)) ∧ ((5 : Int) < 1 ∨ 4 < (5 : Int)) := by
  decide

theorem witness_WriteSetsTheLevelOfAConfiguredPin :
    ((boot []).gpio.pins.get 13).cfg = true ∧ ((boot []).gpio.pins.get 14).cfg = false := by decide

theorem witness_RenderErrorDrawsErr : BoundConfigured (boot []) ∧ EnablesUnaliased (boot []) := by decide

/-- The third clause's FLAG at both ends of its range; the other two name their FLAG. -/
theorem witness_RenderStateDrawsOnOrOff :
    BoundConfigured (boot []) ∧ (0x02#8 ≠ 0x00#8 ∧ 0x02#8 ≠ 0x01#8) ∧ (0xFF#8 ≠ 0x00#8 ∧ 0xFF#8 ≠ 0x01#8) := by decide

/-- Both clauses at the ends of their ranges. -/
theorem witness_SelectDigitSelectsItsSlot :
    BoundConfigured (boot []) ∧ (1#8 ≤ 1#8 ∧ 1#8 ≤ 4#8) ∧ (1#8 ≤ 4#8 ∧ 4#8 ≤ 4#8) ∧ (0#8 = 0#8 ∨ 5#8 ≤ 0#8) ∧
    (5#8 = 0#8 ∨ 5#8 ≤ 5#8) ∧ (0xFF#8 = 0#8 ∨ 5#8 ≤ 0xFF#8) := by decide

theorem witness_ValidRequestDrawsEachCharacterInItsSlot :
    let req := [0x31#8, 0x2E#8, 0x32#8, 0x2E#8, 0x33#8, 0x2E#8, 0x34#8, 0x2E#8]
    BoundConfigured (boot []) ∧ BoundConfigured (bootDrift []) ∧ req.length ≤ 255 ∧ valid req = true := by decide

theorem witness_InvalidRequestDrawsErrAndCompletes :
    BoundConfigured (boot []) ∧ [0x41#8].length ≤ 255 ∧ valid [0x41#8] = false := by decide

theorem witness_OverlongRequestIsRefused :
    (Instr.renderValue (List.replicate 256 0x31#8)).wellFormed = false := by
  rw [Instr.wellFormed, List.length_replicate]; decide

theorem witness_SettersConfigureThenBind : (boot []).config.pinValid (pinOf 255#8) = true := by decide

theorem witness_SettersFaultOnInvalidPin : (State.resetWith small []).config.pinValid (pinOf 64#8) = false := by decide

theorem witness_RaiseEndsTheCommandAndHalts : ∃ s t, runActions (clearSeq s.config) s = .done t := ⟨boot [], _, rfl⟩

theorem witness_OperationCommandsFrame :
    ∃ s t, BoundConfigured s ∧ (∀ r p, Instr.renderState 0x01#8 ≠ setter r p) ∧
      (∀ flag, Instr.renderState 0x01#8 = .renderState flag → flag = 0x00#8 ∨ flag = 0x01#8) ∧
      exec (.renderState 0x01#8) s = .next t :=
  ⟨boot [], _, by decide, fun r p => by cases r <;> simp [setter],
    fun flag h => .inr (Instr.renderState.inj h).symm, rfl⟩

theorem witness_ClearAndSelectTouchOnlyEnables :
    ∃ s t, exec .clear s = .next t ∧ ∀ line ∈ digLines, s.binding line.2 ≠ 9#8 := ⟨boot [], _, rfl, by decide⟩

theorem witness_SettersFrame :
    ∃ s t, s.config.pinValid (pinOf 20#8) = true ∧ exec (setter .dig1 20#8) s = .next t := ⟨boot [], _, by decide, rfl⟩

theorem witness_PinOperandsNameThePinSpace : 8 ≤ Config.default.pinIdWidth ∧ Config.default.pinIdWidth = 8 ∧
    Config.default.hasPin 0 = true ∧ Config.default.hasPin 255 = true := by decide

theorem witness_PinsStayInThePinSpace : ∃ s t, InPinSpace s ∧ step s = .next t :=
  ⟨boot [0x10#8, 0xFF#8], _, by decide, rfl⟩

theorem witness_BoundPinsStayConfigured : ∃ s t, BoundConfigured s ∧ step s = .next t :=
  ⟨boot [0x18#8, 0x14#8], _, by decide, rfl⟩

theorem witness_PinSpaceStaysCanonical : ∃ s t, s.gpio.pins.wf ∧ step s = .next t :=
  ⟨boot [0x10#8, 0x00#8], _, by decide, rfl⟩

theorem witness_TraceGrowsAndExplainsPins : ∃ s t, TraceExplainsPins s ∧ step s = .next t :=
  ⟨boot [0x04#8], _, by decide, rfl⟩

theorem witness_FaultRecordStaysCoherent : ∃ s t, FaultRecordCoherent s ∧ step s = .next t :=
  ⟨boot [0x00#8], _, by decide, rfl⟩

theorem witness_FaultsArePreciseAndGuardsUnreachable :
    ∃ s t, BoundConfigured s ∧ step s = .next t ∧ t.fault = some .reservedOperand :=
  ⟨boot [0x02#8, 0x02#8], _, by decide, rfl, rfl⟩

theorem witness_SpcAdvancesByTheFrame : ∃ s t, step s = .next t := ⟨boot [0x05#8, 0x00#8], _, rfl⟩

theorem witness_BindingsChangeOnlyBySetters : ∃ s t, step s = .next t ∧ t.binding .dp ≠ s.binding .dp :=
  ⟨boot [0x17#8, 0x1B#8], _, rfl, by decide⟩

theorem witness_StreamAndParametersAreNeverWritten : ∃ s t, step s = .next t := ⟨boot [0x03#8], _, rfl⟩

theorem witness_UnboundPinsKeepTheirState :
    ∃ s t, (∀ r, s.binding r ≠ 99) ∧ (∀ r b rest, fetch s = .frame (setter r b) rest → pinOf b ≠ 99) ∧
      step s = .next t :=
  ⟨boot [0x04#8], _, (fun r => by cases r <;> decide), (fun r _ _ h => by cases r <;> cases h), rfl⟩

theorem witness_AtMostOneEnableAtEveryInstant :
    ∃ s t, BoundConfigured s ∧ MuxPremises s ∧ step s = .next t ∧ ∀ r p rest, fetch s ≠ .frame (setter r p) rest :=
  ⟨cleared [0x05#8, 0x02#8], _, by decide, by decide, rfl, (fun r _ _ h => by cases r <;> cases h)⟩

theorem witness_FirstSelectEstablishesThePremises :
    BoundConfigured (boot []) ∧ EnablesUnaliased (boot []) ∧ (1#8 ≤ 1#8 ∧ 4#8 ≤ 4#8) ∧ valid [0x41#8] = false ∧
    ∃ c ∈ [0x2E#8, 0x31#8], isDigit c = true := by decide

theorem witness_CommandsEmitBoundedEvents : ∃ s t, BoundConfigured s ∧ exec .renderError s = .next t :=
  ⟨boot [], _, by decide, rfl⟩

theorem witness_HoldsPerCommand :
    BoundConfigured (boot []) ∧ valid [0x31#8, 0x2E#8] = true ∧ valid [0x41#8] = false ∧
    (boot []).config.pinValid (pinOf 20#8) = true := by decide

theorem witness_NetZeroEventCountOfAValidRequest :
    let req := [0x2E#8, 0x31#8]
    BoundConfigured (boot []) ∧ (boot []).config.dpSlotPolicy = .netZero ∧ req.length ≤ 255 ∧ valid req = true := by
  decide

/-- The digit in slot 1 and in slot 4. -/
theorem witness_PointLightsTheDigitBeforeIt :
    BoundConfigured (boot []) ∧ (Role.all.map (boot []).binding).Nodup ∧ (boot []).config.dpSlotPolicy = .netZero ∧
    isDigit 0x30#8 = true ∧ isDigit 0x39#8 = true ∧ valid ([] ++ [0x30#8, 0x2E#8]) = true ∧
    valid ([0x31#8, 0x32#8, 0x33#8] ++ [0x39#8, 0x2E#8]) = true := by decide

theorem witness_RenderErrorEndsShowingR :
    BoundConfigured (boot []) ∧ (Role.all.map (boot []).binding).Nodup := by decide

theorem witness_LevelsTheSourceFixes : BoundConfigured (boot []) ∧ (boot []).config.dpLit = .low ∧
    (boot []).config.enActive = .high := by decide

end Sys2Proof.Tests
end

section
/-! PROOFS. The decoder reads only frames that the encoder writes, and what a command does to `spc` and the fault
record. -/

namespace Sys2Proof

/-- A command has an encoding exactly when its operand bytes fit LEN and 255 characters (R61, D3). -/
theorem wellFormed_iff_length_operands (i : Instr) : i.wellFormed = true ↔ i.operands.length ≤ 256 := by
  cases i
  case renderValue req => simp [Instr.wellFormed, Instr.operands, Nat.lt_succ_iff]
  all_goals simp [Instr.wellFormed, Instr.operands]

theorem length_encode {i : Instr} (h : i.wellFormed = true) : (encode i).length = i.frameLen := by
  cases i
  case renderValue req => exact Laws.FrameLength.renderValue req h
  all_goals rfl

/-- The fields decoded in a form of the opcode map are the operand bytes of a well-formed command with that OP, and
the bytes after it. -/
theorem operands_of_decodeFields {op : Byte} {form : Form} {tail rest : List Byte} {i : Instr}
    (hform : opcodeMap op = some form) (h : decodeFields form tail = .frame i rest) :
    i.wellFormed = true ∧ i.opcode = op ∧ tail = i.operands ++ rest := by
  obtain ⟨hf0, hf1, hfs⟩ := opcode_of_opcodeMap hform
  rw [wellFormed_iff_length_operands]
  rcases decodeFields_cases h with ⟨hf, htail⟩ | ⟨mk, arg, hf, htail, rfl⟩ | ⟨mk, len, chars, hf, htail, hlen, rfl⟩
  · obtain ⟨hop, hargs, -⟩ := hf0 i hf
    simp [hop, hargs, htail]
  · obtain ⟨hop, hargs, -⟩ := hf1 mk hf arg
    simp [hop, hargs, htail]
  · obtain ⟨rfl, rfl⟩ := hfs mk hf
    have hbound : chars.length < 256 := hlen ▸ len.isLt
    exact ⟨hbound, rfl, by simp [Instr.operands, htail, hlen]⟩

/-- A decoded frame is the encoding of a well-formed command (R63). -/
theorem eq_encode_append_of_decode {bs rest : List Byte} {i : Instr} (h : decode bs = .frame i rest) :
    i.wellFormed = true ∧ bs = encode i ++ rest := by
  cases bs with
  | nil => simp at h
  | cons op tail =>
    rw [decode_cons] at h
    cases hform : opcodeMap op with
    | none => simp [hform] at h
    | some form =>
      obtain ⟨hwf, rfl, rfl⟩ := operands_of_decodeFields hform (by simpa [hform] using h)
      exact ⟨hwf, rfl⟩

end Sys2Proof

namespace Sys2Proof.Machine

/-- A command either completes, with no fault and past its frame, or faults where its frame begins (R27, R155). -/
theorem exec_fault_spc {i : Instr} {s t : State} (hs : s.fault = none) (h : exec i s = .next t) :
    (t.fault = none ∧ t.spc = s.spc + i.frameLen) ∨ (t.fault ≠ none ∧ t.spc = s.spc) := by
  rcases exec_cases h with ⟨evs, -, -, rfl⟩ | ⟨r, b, rfl, -, rfl⟩ | ⟨evs, code, -, rfl⟩
  · exact .inl ⟨hs, rfl⟩
  · exact .inl ⟨hs, by simp [frameLen_setter]⟩
  · exact .inr ⟨by simp, rfl⟩

/-- Settles O47: a step is a reserved OP's fault or the command of a decoded frame, which the encoder writes. -/
theorem spcAdvancesByTheFrame : Obligations.SpcAdvancesByTheFrame := by
  intro s t hstep
  obtain ⟨hs, ⟨op, -, rfl⟩ | ⟨i, rest, hfetch, hexec⟩⟩ := step_cases hstep
  · exact .inr ⟨by simp, rfl⟩
  · obtain ⟨hwf, hbytes⟩ := eq_encode_append_of_decode hfetch
    refine (exec_fault_spc hs hexec).imp_left fun ⟨hfault, hspc⟩ => ⟨hfault, i, rest, hwf, hbytes, ?_⟩
    rw [hspc, length_encode hwf]

end Sys2Proof.Machine
end

section
/-! PROOFS. The OP of a setter is 0x10 plus the role number (R66), and the decoder reads it back. -/

namespace Sys2Proof

/-- At a command's OP the decoder reads the fields of the command's form (R63, R65). -/
theorem decode_opcode_cons (i : Instr) (tail : List Byte) : decode (i.opcode :: tail) = decodeFields i.form tail := by
  rw [decode_cons, opcodeMap_opcode]

/-- A reserved OP is reported whatever follows it (R63, R67). -/
theorem decode_cons_of_opcodeMap_eq_none {op : Byte} (h : opcodeMap op = none) (tail : List Byte) :
    decode (op :: tail) = .undefinedOpcode op := by
  rw [decode_cons, h]

end Sys2Proof

namespace Sys2Proof.Machine

theorem opcode_setter (r : Role) (p : Byte) : (setter r p).opcode = BitVec.ofNat 8 (0x10 + r.num.val) := by
  cases r <;> rfl

theorem form_setter (r : Role) (p : Byte) : (setter r p).form = .f1 (setter r) := by cases r <;> rfl

/-- The setter block of the opcode map ends at role 11: low nibbles 0xC to 0xF are reserved (R66, R67). -/
theorem opcodeMap_eq_none_of_nibble {n : Nat} (hlow : 0xC ≤ n) (hhigh : n ≤ 0xF) :
    opcodeMap (BitVec.ofNat 8 (0x10 + n)) = none := by
  interval_cases n <;> rfl

/-- Settles O11: the OP is the setter's own, whose form takes one operand byte; past role 11 the map has no row. -/
theorem setterOpcodeNamesTheRole : Obligations.SetterOpcodeNamesTheRole := by
  refine ⟨fun r p rest => ?_, fun n rest hlow hhigh => ?_⟩
  · rw [← opcode_setter r p, decode_opcode_cons, form_setter]
    rfl
  · exact decode_cons_of_opcodeMap_eq_none (opcodeMap_eq_none_of_nibble hlow hhigh) rest

end Sys2Proof.Machine
end

section
/-! PROOFS. The Validator's scan decides a property of the request alone (R80 to R83), and the empty request passes it
and draws nothing (R84). -/

namespace Sys2Proof.Machine

theorem isDigit_iff (c : Byte) : isDigit c = true ↔ 0x30#8 ≤ c ∧ c ≤ 0x39#8 := decide_eq_true_iff

theorem ne_point_of_isDigit {c : Byte} (h : isDigit c = true) : c ≠ 0x2E#8 := by
  rintro rfl
  simp [isDigit] at h

@[simp] theorem isDigit_point : isDigit 0x2E#8 = false := rfl

/-! One equation of the scan for each branch of R80. -/

theorem validScan_nil (nd np : Nat) (prevDot : Bool) :
    validScan nd np prevDot [] = true ↔ nd ≤ 4 ∧ np ≤ 4 := by
  simp [validScan]

theorem validScan_digit (nd np : Nat) (prevDot : Bool) {c : Byte} (rest : List Byte) (h : isDigit c = true) :
    validScan nd np prevDot (c :: rest) = validScan (nd + 1) np false rest := if_pos h

theorem validScan_point (nd np : Nat) (prevDot : Bool) (rest : List Byte) :
    validScan nd np prevDot (0x2E#8 :: rest) = (!prevDot && validScan nd (np + 1) true rest) := by
  cases prevDot <;> rfl

theorem validScan_other (nd np : Nat) (prevDot : Bool) {c : Byte} (rest : List Byte) (hd : isDigit c = false)
    (hp : c ≠ 0x2E#8) : validScan nd np prevDot (c :: rest) = false := by
  simp [validScan, isPoint, hd, hp]

/-- No point stands right after another point (R82). -/
def NoAdjacentPoints (req : List Byte) : Prop :=
  ∀ i, ¬ (req[i]? = some 0x2E#8 ∧ req[i + 1]? = some 0x2E#8)

theorem noAdjacentPoints_nil : NoAdjacentPoints [] := by simp [NoAdjacentPoints]

/-- A first character adds one adjacent pair, at index 0. -/
theorem noAdjacentPoints_cons (c : Byte) (rest : List Byte) :
    NoAdjacentPoints (c :: rest) ↔ (c = 0x2E#8 → rest.head? ≠ some 0x2E#8) ∧ NoAdjacentPoints rest := by
  unfold NoAdjacentPoints
  rw [← Nat.and_forall_add_one]
  simp [List.head?_eq_getElem?]

/-- What the scan still asks of `req` with its counts at `nd` and `np`, and `prevDot` when a point was just read
(R81 to R83). -/
def PassesFrom (nd np : Nat) (prevDot : Bool) (req : List Byte) : Prop :=
  (∀ c ∈ req, isDigit c = true ∨ c = 0x2E#8) ∧ (prevDot = true → req.head? ≠ some 0x2E#8) ∧ NoAdjacentPoints req ∧
    nd + req.countP isDigit ≤ 4 ∧ np + req.count 0x2E#8 ≤ 4

theorem passesFrom_nil (nd np : Nat) (prevDot : Bool) : PassesFrom nd np prevDot [] ↔ nd ≤ 4 ∧ np ≤ 4 := by
  simp [PassesFrom, noAdjacentPoints_nil]

/-- A digit is counted and clears `prevDot`. -/
theorem passesFrom_digit (nd np : Nat) (prevDot : Bool) {c : Byte} (rest : List Byte) (h : isDigit c = true) :
    PassesFrom nd np prevDot (c :: rest) ↔ PassesFrom (nd + 1) np false rest := by
  have hp := ne_point_of_isDigit h
  simp [PassesFrom, noAdjacentPoints_cons, h, hp, Nat.add_assoc, Nat.add_comm 1]

/-- A point passes only when no point was just read; it is counted and sets `prevDot`. -/
theorem passesFrom_point (nd np : Nat) (prevDot : Bool) (rest : List Byte) :
    PassesFrom nd np prevDot (0x2E#8 :: rest) ↔ prevDot = false ∧ PassesFrom nd (np + 1) true rest := by
  simp [PassesFrom, noAdjacentPoints_cons, Nat.add_assoc, Nat.add_comm 1, and_assoc, and_left_comm]

/-- The scan's verdict, from any counts (R80). -/
theorem validScan_iff_passesFrom (nd np : Nat) (prevDot : Bool) (req : List Byte) :
    validScan nd np prevDot req = true ↔ PassesFrom nd np prevDot req := by
  induction req generalizing nd np prevDot with
  | nil => rw [validScan_nil, passesFrom_nil]
  | cons c rest ih =>
    cases hd : isDigit c with
    | true => rw [validScan_digit nd np prevDot rest hd, passesFrom_digit nd np prevDot rest hd, ih]
    | false =>
      by_cases hp : c = 0x2E#8
      · subst hp
        rw [validScan_point, passesFrom_point, Bool.and_eq_true, Bool.not_eq_true', ih]
      · rw [validScan_other nd np prevDot rest hd hp]
        have hbad : ¬ PassesFrom nd np prevDot (c :: rest) := fun ⟨hacceptable, _⟩ =>
          (hacceptable c List.mem_cons_self).elim (by simp [hd]) hp
        simp [hbad]

/-- Settles O13: the scan starts with both counts 0 and no point before it. -/
theorem validatorAcceptsExactly : Obligations.ValidatorAcceptsExactly := by
  intro req
  rw [valid, validScan_iff_passesFrom]
  simp only [PassesFrom, isDigit_iff, Bool.false_eq_true, false_implies, true_and, Nat.zero_add]
  rfl

/-- Settles O15: the scan of no character passes with both counts 0, and RENDER_VALUE of it makes no call. -/
theorem emptyRequestDrawsNothing : Obligations.EmptyRequestDrawsNothing := by
  have hvalid : valid [] = true := (validScan_nil 0 0 false).2 ⟨by decide, by decide⟩
  refine ⟨hvalid, fun s => ?_⟩
  have hcalls : runActions (renderDigits s.config 1 []) s = .done s := rfl
  calc exec (.renderValue []) s = complete (.renderValue []) (runActions (renderDigits s.config 1 []) s) := rfl
    _ = .next { s with spc := s.spc + 2 } := by rw [hcalls, complete_done]; rfl

end Sys2Proof.Machine
end

section
/-! PROOFS. The two outcomes of a LUT read (R92), the key of a digit character (R93), the events of one slot-draw
(R104), and "Err" for a request that fails the Validator (R150). -/

namespace Sys2Proof.Machine

/-- Settles O32: the failing branch of RENDER_VALUE runs "Err", which holds no `raise`. -/
theorem invalidRequestDrawsErrAndCompletes : Obligations.InvalidRequestDrawsErrAndCompletes :=
  fun _ _ hs hlen hinvalid => execRenderValue_of_invalid hs hlen hinvalid

theorem lutRead_of_lt (c : Config) {k : Nat} (h : k < 15) : lutRead c k = .ok c.glyphLut[k] := dif_pos h

theorem lutRead_of_not_lt (c : Config) {k : Nat} (h : ¬ k < 15) : lutRead c k = .error .undefinedGlyphKey := dif_neg h

/-- Settles O16: the two branches of the read. -/
theorem lutReadsItsKeysOnly : Obligations.LutReadsItsKeysOnly :=
  ⟨fun c k => lutRead_of_lt c k.isLt, fun c _ hk => lutRead_of_not_lt c (Nat.not_lt.2 hk)⟩

/-- The key of a character whose code fits a byte is its distance from '0' (R93). -/
theorem digitKey_ofNat {n : Nat} (h : 0x30 + n < 256) : digitKey (BitVec.ofNat 8 (0x30 + n)) = n := by
  rw [digitKey, BitVec.toNat_ofNat, Nat.mod_eq_of_lt h, Nat.add_sub_cancel_left]

/-- Settles O17: the codes of the ten digits fit a byte. -/
theorem digitKeyOfDigitCharacter : Obligations.DigitKeyOfDigitCharacter :=
  fun n => digitKey_ofNat (by omega)

/-- A select writes all four enable lines or none (R102, R103). -/
theorem length_selectEvents (s : State) (k : Int) :
    (selectEvents s k).length = if 1 ≤ k ∧ k ≤ 4 then 4 else 0 := by
  by_cases h : 1 ≤ k ∧ k ≤ 4
  · have hk : k = 1 ∨ k = 2 ∨ k = 3 ∨ k = 4 := by omega
    rcases hk with rfl | rfl | rfl | rfl <;> rfl
  · have hne : k ≠ 1 ∧ k ≠ 2 ∧ k ≠ 3 ∧ k ≠ 4 := by omega
    simp [selectEvents, hne, h]

theorem length_segmentEvents (s : State) (g : Pattern) : (segmentEvents s g).length = 7 := rfl

/-- The point, the seven segments and the hold are nine events beside the select (R104). -/
theorem length_slotDrawEvents (s : State) (k : Int) (g : Pattern) (point : Level) :
    (slotDrawEvents s k g point).length = if 1 ≤ k ∧ k ≤ 4 then 13 else 9 := by
  simp only [slotDrawEvents, List.length_append, length_selectEvents, length_segmentEvents, List.length_singleton]
  split <;> rfl

/-- With every bound pin configured a slot-draw with one of the 15 keys emits its events and completes (R104). -/
theorem runActions_drawGlyph {s : State} (hs : BoundConfigured s) (k : Int) {key : Nat} (hkey : key < 15) (lit : Bool) :
    runActions (drawGlyph s.config k key lit) s =
      .done (s.withEvents
        (slotDrawEvents s k s.config.glyphLut[key] (if lit then s.config.dpLit else s.config.dpUnlit))) := by
  rw [← eventsOf_drawGlyph s k hkey lit]
  exact runActions_of_boundConfigured hs (allCalls_drawGlyph s.config k hkey lit)

/-- Settles O22: the run and the count of the slot-draw's events. -/
theorem slotDrawSelectsDrivesHolds : Obligations.SlotDrawSelectsDrivesHolds :=
  fun s k key lit hs => ⟨runActions_drawGlyph hs k key.isLt lit, length_slotDrawEvents s k _ _⟩

end Sys2Proof.Machine
end

section
/-! PROOFS. A select outside the four slots (R103). -/

namespace Sys2Proof.Machine

/-- A command that makes no call leaves the whole state as it was. -/
@[simp] theorem runActions_nil (s : State) : runActions [] s = .done s := rfl

/-- Settles O21: outside 1..4 the list of calls is empty. -/
theorem selectOutsideOneToFourDoesNothing : Obligations.SelectOutsideOneToFourDoesNothing := by
  intro s k hk
  have houtside : ¬ (1 ≤ k ∧ k ≤ 4) := by omega
  rw [selectDigit_of_outside s.config houtside, runActions_nil]

end Sys2Proof.Machine
end

section
/-! PROOFS. A reserved OP is the OP of no command (R67), so the opcode map has no row for it and the step enters its
fault (R152). -/

namespace Sys2Proof

/-- The opcode map has rows for the OP bytes of commands only (R65). -/
theorem opcodeMap_eq_none_of_forall_ne {op : Byte} (h : ∀ i : Instr, i.opcode ≠ op) : opcodeMap op = none := by
  cases hform : opcodeMap op with
  | none => rfl
  | some form =>
    obtain ⟨hf0, hf1, hfs⟩ := opcode_of_opcodeMap hform
    cases form with
    | f0 i => exact absurd (hf0 i rfl).1 (h i)
    | f1 mk => exact absurd (hf1 mk rfl 0).1 (h (mk 0))
    | fs mk => exact absurd (hfs mk rfl).1.symm (h (.renderValue []))

/-- R67's set of reserved OP bytes. -/
def ReservedOp (op : Byte) : Prop := op = 0x00#8 ∨ (0x06#8 ≤ op ∧ op ≤ 0x0F#8) ∨ 0x1C#8 ≤ op

/-- The OP of each of the 17 commands lies outside the reserved ranges (R65, R67). -/
theorem not_reservedOp_opcode (i : Instr) : ¬ ReservedOp i.opcode := by
  cases i <;> simp [ReservedOp, Instr.opcode]

theorem opcodeMap_eq_none_of_reservedOp {op : Byte} (h : ReservedOp op) : opcodeMap op = none :=
  opcodeMap_eq_none_of_forall_ne fun i hi => not_reservedOp_opcode i (hi ▸ h)

end Sys2Proof

namespace Sys2Proof.Machine

/-- A block that is not halted enters the fault of the reserved OP it reads (R152, R155). -/
theorem step_of_fetch_undefinedOpcode {s : State} {op : Byte} (hs : s.fault = none)
    (hfetch : fetch s = .undefinedOpcode op) : step s = .next (raiseFault .undefinedOpcode op s) := by
  simp [step, hs, hfetch]

/-- Settles O6: the opcode map has no row for a reserved OP, so the decoder reports it whatever follows. -/
theorem reservedOpcodeFaults : Obligations.ReservedOpcodeFaults := by
  intro s op rest hs hbytes hreserved
  have hfetch : fetch s = .undefinedOpcode op := by
    rw [fetch, hbytes, decode_cons_of_opcodeMap_eq_none (opcodeMap_eq_none_of_reservedOp hreserved)]
  exact step_of_fetch_undefinedOpcode hs hfetch

end Sys2Proof.Machine
end

section
/-! PROOFS. The decoder inverts the encoder, so no frame is a proper beginning of another: what decodes is one frame, a
part of a frame is incomplete, and later bytes change nothing (R61 to R63, R71). -/

namespace Sys2Proof

/-- LEN holds the length of every request a frame can carry (R61). -/
theorem toNat_ofNat_length {req : List Byte} (h : req.length ≤ 255) : (BitVec.ofNat 8 req.length).toNat = req.length := by
  rw [BitVec.toNat_ofNat, Nat.mod_eq_of_lt (by omega)]

/-- The fields of a command's form read back its operand bytes (R61). -/
theorem decodeFields_form_operands {i : Instr} (h : i.wellFormed = true) (rest : List Byte) :
    decodeFields i.form (i.operands ++ rest) = .frame i rest := by
  cases i
  case renderValue req =>
    have hlen := toNat_ofNat_length (by simpa [Instr.wellFormed] using h : req.length ≤ 255)
    simp [Instr.form, Instr.operands, decodeFields, hlen]
  all_goals rfl

theorem decode_encode_append {i : Instr} (h : i.wellFormed = true) (rest : List Byte) :
    decode (encode i ++ rest) = .frame i rest := by
  rw [encode, List.cons_append, decode_opcode_cons, decodeFields_form_operands h]

/-- Settles O8: the OP selects the command's form, whose fields read back the operands. -/
theorem decodeOfEncodeIsTheCommand : Obligations.DecodeOfEncodeIsTheCommand :=
  fun _ rest hwf => decode_encode_append hwf rest

/-- Settles O9: a row of the opcode map makes only commands with that row's OP and the fields read. -/
theorem decodedFrameIsTheEncoding : Obligations.DecodedFrameIsTheEncoding :=
  fun _ _ _ => eq_encode_append_of_decode

/-- A reserved OP is reported only where its byte stands (R63). -/
theorem eq_cons_of_decode_undefinedOpcode {bs : List Byte} {op : Byte} (h : decode bs = .undefinedOpcode op) :
    ∃ tail, bs = op :: tail ∧ opcodeMap op = none := by
  cases bs with
  | nil => simp at h
  | cons b tail =>
    rw [decode_cons] at h
    cases hform : opcodeMap b with
    | none =>
      obtain rfl : b = op := by simpa [hform] using h
      exact ⟨tail, rfl, hform⟩
    | some form =>
      rw [hform] at h
      cases form with
      | f0 i => simp [decodeFields] at h
      | f1 mk => cases tail <;> simp [decodeFields] at h
      | fs mk =>
        cases tail with
        | nil => simp [decodeFields] at h
        | cons len chars =>
          simp only [decodeFields] at h
          split at h <;> simp at h

/-- A proper beginning of a frame is no frame and holds no reserved OP (R63). -/
theorem decode_of_properPrefix {i : Instr} (hwf : i.wellFormed = true) {bs : List Byte} (hpre : bs <+: encode i)
    (hne : bs ≠ encode i) : decode bs = .incomplete := by
  obtain ⟨more, hmore⟩ := hpre
  cases hd : decode bs with
  | incomplete => rfl
  | undefinedOpcode op =>
    obtain ⟨tail, rfl, hnone⟩ := eq_cons_of_decode_undefinedOpcode hd
    obtain rfl : op = i.opcode := (List.cons.inj hmore).1
    simp [opcodeMap_opcode] at hnone
  | frame j rest =>
    obtain ⟨hj, rfl⟩ := eq_encode_append_of_decode hd
    have htwice : Decoded.frame j (rest ++ more) = .frame i [] := by
      rw [← decode_encode_append hj, ← decode_encode_append hwf [], List.append_nil, ← hmore, List.append_assoc]
    simp only [Decoded.frame.injEq, List.append_eq_nil_iff] at htwice
    obtain ⟨-, -, rfl⟩ := htwice
    exact absurd (by simpa using hmore) hne

theorem decode_append_of_frame {bs rest : List Byte} {i : Instr} (h : decode bs = .frame i rest) (later : List Byte) :
    decode (bs ++ later) = .frame i (rest ++ later) := by
  obtain ⟨hwf, rfl⟩ := eq_encode_append_of_decode h
  rw [List.append_assoc, decode_encode_append hwf]

theorem decode_append_of_undefinedOpcode {bs : List Byte} {op : Byte} (h : decode bs = .undefinedOpcode op)
    (later : List Byte) : decode (bs ++ later) = .undefinedOpcode op := by
  obtain ⟨tail, rfl, hnone⟩ := eq_cons_of_decode_undefinedOpcode h
  exact decode_cons_of_opcodeMap_eq_none hnone _

/-- Settles O10: each word runs through the decoder; none has more than seven bytes. -/
theorem wordsOfEachFamilyDecode : Obligations.WordsOfEachFamilyDecode := by
  unfold Obligations.WordsOfEachFamilyDecode
  decide

end Sys2Proof
end

section
/-! PROOFS. When a step is there and when it is not, by what the decoder reads at `spc` (R31, R63), and bytes that
arrive later (R43). -/

namespace Sys2Proof.Machine

/-- Settles O7: the fault record is read before the stream. -/
theorem haltedBlockHasNoStep : Obligations.HaltedBlockHasNoStep := by
  intro s code hs
  simp [step, hs]

theorem step_of_fetch_incomplete {s : State} (hs : s.fault = none) (hfetch : fetch s = .incomplete) :
    step s = .fault .awaitingFrame := by
  simp [step, hs, hfetch]

theorem step_of_fetch_frame {s : State} {i : Instr} {rest : List Byte} (hs : s.fault = none)
    (hfetch : fetch s = .frame i rest) : step s = exec i s := by
  simp [step, hs, hfetch]

/-- Settles O4: the decoder reads the encoded command back. -/
theorem stepRunsDecodedCommand : Obligations.StepRunsDecodedCommand := by
  intro s i rest hs hwf hbytes
  exact step_of_fetch_frame hs (by rw [fetch, hbytes, decode_encode_append hwf])

/-- Settles O5: no proper beginning of a frame decodes. -/
theorem partialFrameHasNoStep : Obligations.PartialFrameHasNoStep :=
  fun _ _ hs hwf hpre hne => step_of_fetch_incomplete hs (decode_of_properPrefix hwf hpre hne)

/-- An offset at which an element stands is before everything appended. -/
theorem drop_append_of_ne_nil {α : Type} {l : List α} {n : Nat} (h : l.drop n ≠ []) (later : List α) :
    (l ++ later).drop n = l.drop n ++ later := by
  have hlt : n < l.length := by simpa using h
  exact List.drop_append_of_le_length hlt.le

theorem fetch_arrive_of_frame {s : State} {i : Instr} {rest : List Byte} (h : fetch s = .frame i rest)
    (bs : List Byte) : fetch (s.arrive bs) = .frame i (rest ++ bs) := by
  have hne : s.stream.drop s.spc ≠ [] := fun hnil => by simp [fetch, hnil] at h
  rw [fetch, State.arrive_stream, State.arrive_spc, drop_append_of_ne_nil hne]
  exact decode_append_of_frame h bs

theorem fetch_arrive_of_undefinedOpcode {s : State} {op : Byte} (h : fetch s = .undefinedOpcode op)
    (bs : List Byte) : fetch (s.arrive bs) = .undefinedOpcode op := by
  have hne : s.stream.drop s.spc ≠ [] := fun hnil => by simp [fetch, hnil] at h
  rw [fetch, State.arrive_stream, State.arrive_spc, drop_append_of_ne_nil hne]
  exact decode_append_of_undefinedOpcode h bs

/-- A run's outcome with bytes arrived in its state. -/
def Run.arrive (bs : List Byte) : Run → Run
  | .done s => .done (s.arrive bs)
  | .raised code s => .raised code (s.arrive bs)

/-- A primitive call neither reads nor writes the stream (R43). -/
theorem Action.run_arrive (a : Action) (s : State) (bs : List Byte) : a.run (s.arrive bs) = (a.run s).arrive bs := by
  cases a with
  | write r v =>
    simp only [Action.run, State.arrive_gpio, State.arrive_binding]
    cases s.gpio.write (s.binding r) v <;> rfl
  | hold => rfl
  | raise code => rfl

theorem runActions_arrive (as : List Action) (s : State) (bs : List Byte) :
    runActions as (s.arrive bs) = (runActions as s).arrive bs := by
  induction as generalizing s with
  | nil => rfl
  | cons a rest ih =>
    simp only [runActions, Action.run_arrive]
    cases a.run s with
    | done s' => exact ih s'
    | raised code s' => rfl

theorem setRole_arrive (r : Role) (p : PinId) (s : State) (bs : List Byte) :
    setRole r p (s.arrive bs) = (setRole r p s).arrive bs := by
  simp only [setRole, State.arrive_gpio, State.arrive_config]
  cases s.gpio.configure (s.config.pinValid p) p <;> rfl

theorem complete_arrive {i : Instr} {r : Run} {t : State} (h : complete i r = .next t) (bs : List Byte) :
    complete i (r.arrive bs) = .next (t.arrive bs) := by
  cases r <;> cases h <;> rfl

theorem complete_runActions_arrive {i : Instr} {as : List Action} {s t : State}
    (h : complete i (runActions as s) = .next t) (bs : List Byte) :
    complete i (runActions as (s.arrive bs)) = .next (t.arrive bs) := by
  rw [runActions_arrive]
  exact complete_arrive h bs

/-- No command reads or writes the stream (R43). -/
theorem exec_arrive {i : Instr} {s t : State} (h : exec i s = .next t) (bs : List Byte) :
    exec i (s.arrive bs) = .next (t.arrive bs) := by
  rcases instr_cases i with ⟨req, rfl⟩ | ⟨flag, rfl⟩ | rfl | rfl | ⟨slot, rfl⟩ | ⟨r, p, rfl⟩
  · by_cases hl : req.length ≤ 255
    · simp only [exec, execRenderValue, if_pos hl] at h ⊢
      exact complete_runActions_arrive h bs
    · simp [exec, execRenderValue, hl] at h
  · simp only [exec, execRenderState] at h ⊢
    cases hf : flagOf flag with
    | none =>
      simp only [hf] at h ⊢
      exact complete_arrive h bs
    | some b =>
      simp only [hf] at h ⊢
      exact complete_runActions_arrive h bs
  · exact complete_runActions_arrive h bs
  · exact complete_runActions_arrive h bs
  · exact complete_runActions_arrive h bs
  · rw [exec_setter] at h ⊢
    rw [setRole_arrive]
    exact complete_arrive h bs

/-- Settles O12: neither the frame read at `spc` nor its meaning changes when bytes arrive. -/
theorem laterBytesDoNotChangeAStep : Obligations.LaterBytesDoNotChangeAStep := by
  intro s t bs hstep
  obtain ⟨hs, ⟨op, hfetch, rfl⟩ | ⟨i, rest, hfetch, hexec⟩⟩ := step_cases hstep
  · exact step_of_fetch_undefinedOpcode hs (fetch_arrive_of_undefinedOpcode hfetch bs)
  · rw [step_of_fetch_frame (s := s.arrive bs) hs (fetch_arrive_of_frame hfetch bs)]
    exact exec_arrive hexec bs

end Sys2Proof.Machine
end

section
/-! PROOFS. What every step keeps (R22, R26, R31, R34, R43, R131): a step emits events, and beyond them it advances
`spc`, writes one binding or sets the fault record. -/

namespace Sys2Proof.Machine

/-- What a step can do to the state, in any state (R63, R130, R155): some sequencer events and an advance of `spc`, a
setter's configure and bind, or a fault after some sequencer events. -/
inductive StepEffect (s : State) : State → Prop
  | operation {i : Instr} {rest : List Byte} {evs : List Event} (hfetch : fetch s = .frame i rest)
      (hevs : ∀ e ∈ evs, SequencerEvent s e) : StepEffect s (s.emitted evs i.frameLen)
  | setter {r : Role} {b : Byte} {rest : List Byte} (hfetch : fetch s = .frame (setter r b) rest)
      (hvalid : s.config.pinValid (pinOf b) = true) :
      StepEffect s ((s.emitted [.cfg (pinOf b)] 2).setBinding r (pinOf b))
  | fault {evs : List Event} (code : FaultCode) (op : Byte) (hevs : ∀ e ∈ evs, SequencerEvent s e) :
      StepEffect s (raiseFault code op (s.withEvents evs))

theorem step_effect {s t : State} (h : step s = .next t) : StepEffect s t := by
  obtain ⟨-, ⟨op, -, rfl⟩ | ⟨i, rest, hfetch, hexec⟩⟩ := step_cases h
  · simpa using StepEffect.fault (s := s) (evs := []) .undefinedOpcode op (by simp)
  · rcases exec_cases hexec with ⟨evs, hevs, -, rfl⟩ | ⟨r, b, rfl, hvalid, rfl⟩ | ⟨evs, code, hevs, rfl⟩
    · exact .operation hfetch hevs
    · exact .setter hfetch hvalid
    · exact .fault code _ hevs

/-- Whatever a step does to the pins, it does by events (R34). -/
theorem step_gpio {s t : State} (h : step s = .next t) :
    ∃ evs, t.gpio = ⟨replay evs s.gpio.pins, s.gpio.trace ++ evs⟩ := by
  cases step_effect h with
  | operation _ _ => exact ⟨_, rfl⟩
  | setter _ _ => exact ⟨_, rfl⟩
  | fault _ _ _ => exact ⟨_, rfl⟩

/-- A setter keeps R26: the new pin has just been configured, and no event clears `cfg`. -/
theorem boundConfigured_configure_bind {s : State} (hs : BoundConfigured s) (r : Role) (p : PinId) (len : Nat) :
    BoundConfigured ((s.emitted [.cfg p] len).setBinding r p) := by
  intro q hq
  by_cases hqr : q = r
  · subst hqr
    simp [Pins.get_configure_self]
  · rw [State.binding_setBinding_of_ne hqr, State.setBinding_pin]
    exact cfg_replay [.cfg p] (hs q hq)

/-- Settles O41: no event clears `cfg`, and a setter binds the pin it has configured. -/
theorem boundPinsStayConfigured : Obligations.BoundPinsStayConfigured := by
  intro s t hs hstep
  cases step_effect hstep with
  | operation _ _ => exact State.boundConfigured_withEvents hs _
  | setter _ _ => exact boundConfigured_configure_bind hs _ _ _
  | fault _ _ _ => exact State.boundConfigured_withEvents hs _

/-- Sequencer events act on bound pins, so they list no pin outside the pin space. -/
theorem hasPin_replay_of_sequencerEvent {s : State} (hs : InPinSpace s) {evs : List Event}
    (hevs : ∀ e ∈ evs, SequencerEvent s e) : ∀ e ∈ replay evs s.gpio.pins, s.config.hasPin e.1 = true := by
  refine forall_replay (P := fun p => s.config.hasPin p = true) hs.2 fun ev hev p hp => ?_
  rcases hevs ev hev with ⟨r, v, rfl⟩ | rfl
  · obtain rfl : s.binding r = p := by simpa [State.wEvent, Event.pin?] using hp
    exact hs.1 r (role_mem_all r)
  · simp [Event.pin?] at hp

/-- A setter keeps the pin space: its pin is valid, so it is in it (R40, R44). -/
theorem inPinSpace_configure_bind {s : State} (hs : InPinSpace s) {p : PinId} (hp : s.config.hasPin p = true)
    (r : Role) (len : Nat) : InPinSpace ((s.emitted [.cfg p] len).setBinding r p) := by
  refine ⟨fun q hq => ?_, Pins.forall_put (P := fun p => s.config.hasPin p = true) hs.2 hp _⟩
  by_cases hqr : q = r
  · subst hqr
    rwa [State.binding_setBinding_self]
  · rw [State.binding_setBinding_of_ne hqr]
    exact hs.1 q hq

/-- Settles O42: sequencer events act on bound pins, and a setter on a valid one. -/
theorem pinsStayInThePinSpace : Obligations.PinsStayInThePinSpace := by
  intro s t hs hstep
  cases step_effect hstep with
  | operation _ hevs => exact ⟨hs.1, hasPin_replay_of_sequencerEvent hs hevs⟩
  | setter _ hvalid => exact inPinSpace_configure_bind hs (hasPin_of_pinValid hvalid) _ _
  | fault _ _ hevs => exact ⟨hs.1, hasPin_replay_of_sequencerEvent hs hevs⟩

/-- Settles O43: every event keeps the canonical form. -/
theorem pinSpaceStaysCanonical : Obligations.PinSpaceStaysCanonical := by
  intro s t hs hstep
  obtain ⟨evs, hgpio⟩ := step_gpio hstep
  rw [hgpio]
  exact wf_replay hs evs

/-- Settles O44: the events that change the pins are those appended to the trace. -/
theorem traceGrowsAndExplainsPins : Obligations.TraceGrowsAndExplainsPins := by
  intro s t hstep
  obtain ⟨evs, hgpio⟩ := step_gpio hstep
  refine ⟨⟨evs, by rw [hgpio]⟩, fun hexplains => ?_⟩
  rw [TraceExplainsPins, hgpio, replay_append, ← hexplains]

/-- Settles O45: a step that sets no fault leaves the whole record as it was. -/
theorem faultRecordStaysCoherent : Obligations.FaultRecordStaysCoherent := by
  intro s t hs hstep
  cases step_effect hstep with
  | operation _ _ => exact hs
  | setter _ _ => exact hs
  | fault code op _ => exact fun hnone => by simp at hnone

/-- Settles O48: a binding is written by the setter of its role alone. -/
theorem bindingsChangeOnlyBySetters : Obligations.BindingsChangeOnlyBySetters := by
  intro s t r hstep hchanged
  cases step_effect hstep with
  | operation _ _ => exact absurd rfl hchanged
  | @setter q b rest hfetch _ =>
    have hrq : r = q := by
      by_contra hne
      exact hchanged (State.binding_setBinding_of_ne hne _ _)
    subst hrq
    exact ⟨b, rest, hfetch, State.binding_setBinding_self _ _ _⟩
  | fault _ _ _ => exact absurd rfl hchanged

/-- Settles O49: no effect of a step writes either. -/
theorem streamAndParametersAreNeverWritten : Obligations.StreamAndParametersAreNeverWritten := by
  intro s t hstep
  cases step_effect hstep with
  | operation _ _ => exact ⟨rfl, rfl⟩
  | setter _ _ => exact ⟨rfl, rfl⟩
  | fault _ _ _ => exact ⟨rfl, rfl⟩

/-- Sequencer events leave every pin that no role is bound to alone (R22). -/
theorem get_replay_of_unbound {s : State} {evs : List Event} (hevs : ∀ e ∈ evs, SequencerEvent s e) {p : PinId}
    (hp : ∀ r, s.binding r ≠ p) (ps : Pins) : Pins.get (replay evs ps) p = Pins.get ps p :=
  get_replay_of_untouched (fun e he => (hevs e he).pin_ne hp) ps

/-- Settles O50: sequencer events act on bound pins, a setter on the pin it names. -/
theorem unboundPinsKeepTheirState : Obligations.UnboundPinsKeepTheirState := by
  intro s t p hunbound hnamed hstep
  cases step_effect hstep with
  | operation _ hevs => exact get_replay_of_unbound hevs hunbound _
  | setter hfetch _ => exact Pins.get_put_of_ne (hnamed _ _ _ hfetch).symm _ _
  | fault _ _ hevs => exact get_replay_of_unbound hevs hunbound _

/-- A decoded OP stands at `spc`. -/
theorem getElem?_stream_of_drop_eq_cons {s : State} {op : Byte} {tail : List Byte}
    (h : s.stream.drop s.spc = op :: tail) : s.stream[s.spc]? = some op := by
  rw [← Nat.add_zero s.spc, ← List.getElem?_drop, h, List.getElem?_cons_zero]

theorem getElem?_stream_of_fetch_frame {s : State} {i : Instr} {rest : List Byte} (h : fetch s = .frame i rest) :
    s.stream[s.spc]? = some i.opcode :=
  getElem?_stream_of_drop_eq_cons (eq_encode_append_of_decode h).2

theorem getElem?_stream_of_fetch_undefinedOpcode {s : State} {op : Byte} (h : fetch s = .undefinedOpcode op) :
    s.stream[s.spc]? = some op := by
  obtain ⟨tail, hbytes, -⟩ := eq_cons_of_decode_undefinedOpcode h
  exact getElem?_stream_of_drop_eq_cons hbytes

/-- Settles O46: under R26 a frame faults on its operand alone, before any event, and a reserved OP at once. -/
theorem faultsArePreciseAndGuardsUnreachable : Obligations.FaultsArePreciseAndGuardsUnreachable := by
  intro s t code hs hstep hcode
  obtain ⟨hnone, ⟨op, hfetch, rfl⟩ | ⟨i, rest, hfetch, hexec⟩⟩ := step_cases hstep
  · obtain rfl : FaultCode.undefinedOpcode = code := by simpa using hcode
    exact ⟨.inl rfl, op, getElem?_stream_of_fetch_undefinedOpcode hfetch, rfl⟩
  · have hop := getElem?_stream_of_fetch_frame hfetch
    rcases exec_cases_of_boundConfigured hs hexec with
      ⟨evs, -, -, rfl⟩ | ⟨r, b, -, -, rfl⟩ | ⟨flag, -, -, rfl⟩ | ⟨r, b, -, -, rfl⟩
    · simp [hnone] at hcode
    · simp [hnone] at hcode
    · obtain rfl : FaultCode.reservedOperand = code := by simpa using hcode
      exact ⟨.inr (.inl rfl), i.opcode, hop, rfl⟩
    · obtain rfl : FaultCode.invalidPin = code := by simpa using hcode
      exact ⟨.inr (.inr rfl), i.opcode, hop, rfl⟩

end Sys2Proof.Machine
end

section
/-! PROOFS. What the events of a command leave on a pin, and what a run of calls can do beyond its events: the three
GPIO primitives (R44 to R46), the shared primitives of the sequencer (R94, R102, R106), and a raise (R155). -/

namespace Sys2Proof.Machine

/-- Settles O24: the pin just configured reads as written, and no other pin is touched. -/
theorem configureMakesAnOutputOfUnknownLevel : Obligations.ConfigureMakesAnOutputOfUnknownLevel :=
  ⟨fun p g => ⟨_, rfl, rfl, Pins.get_configure_self g.pins p, fun _ hq => Pins.get_put_of_ne hq _ _⟩,
    fun _ _ => rfl⟩

/-- Settles O25: the two branches of the guard, and the pin space after a put. -/
theorem writeSetsTheLevelOfAConfiguredPin : Obligations.WriteSetsTheLevelOfAConfiguredPin := by
  refine ⟨fun p v g hcfg => ⟨_, if_pos hcfg, rfl, ?_, fun q hq => Pins.get_put_of_ne hq _ _⟩, fun p v g hcfg => ?_⟩
  · rw [← hcfg]
    exact Pins.get_write_self g.pins p v
  · simp [Gpio.write, hcfg]

/-- Settles O26: a hold is one event and writes no pin. -/
theorem holdOnlyRecordsItself : Obligations.HoldOnlyRecordsItself := fun _ _ => ⟨rfl, rfl⟩

/-- Settles O19: seven writes, which succeed on configured pins. -/
theorem segmentDriveWritesSevenLines : Obligations.SegmentDriveWritesSevenLines :=
  fun s g hs => runActions_of_boundConfigured hs (allCalls_driveSegments s.config g)

/-- With every bound pin configured a select emits its events and completes (R102, R103). -/
theorem runActions_selectDigit {s : State} (hs : BoundConfigured s) (k : Int) :
    runActions (selectDigit s.config k) s = .done (s.withEvents (selectEvents s k)) := by
  rw [← eventsOf_selectDigit]
  exact runActions_of_boundConfigured hs (allCalls_selectDigit s.config k)

/-- Settles O20: the run and the count of a select's events. -/
theorem selectDeactivatesThenActivates : Obligations.SelectDeactivatesThenActivates := by
  intro s k hs hlow hhigh
  exact ⟨runActions_selectDigit hs k, by rw [length_selectEvents, if_pos ⟨hlow, hhigh⟩]⟩

/-- The counter after a point (R106). -/
theorem drawPoint_counter (c : Config) (k : Int) :
    (drawPoint c k).2 =
      match c.dpSlotPolicy with
      | .netZero => k
      | .drift => k + 1 := by
  unfold drawPoint
  cases c.dpSlotPolicy with
  | netZero => exact Int.sub_add_cancel k 1
  | drift => rfl

/-- With every bound pin configured a point emits its events and completes (R106). -/
theorem runActions_drawPoint {s : State} (hs : BoundConfigured s) (k : Int) :
    runActions (drawPoint s.config k).1 s = .done (s.withEvents (pointEvents s (k - 1))) := by
  rw [← eventsOf_drawPoint]
  exact runActions_of_boundConfigured hs (allCalls_drawPoint s.config k)

/-- Settles O23: the run of a point and the counter it leaves. -/
theorem pointAttachesToThePreviousSlot : Obligations.PointAttachesToThePreviousSlot := by
  intro s k hs
  exact ⟨runActions_drawPoint hs k, drawPoint_counter s.config k⟩

/-- Primitive calls do not move `spc` (R27). -/
theorem spc_of_runActions_done {as : List Action} {s t : State} (h : runActions as s = .done t) : t.spc = s.spc := by
  obtain ⟨evs, -, h1 | ⟨code, h1⟩⟩ := runActions_cases as s
  · obtain rfl := Run.done.inj (h.symm.trans h1)
    rfl
  · cases h.symm.trans h1

/-- The calls after a raise are not made (R155). -/
theorem runActions_append_raise {before : List Action} {s t : State} (h : runActions before s = .done t)
    (code : FaultCode) (after : List Action) : runActions (before ++ .raise code :: after) s = .raised code t := by
  rw [runActions_append, h]
  rfl

/-- Settles O37: the raise ends the run in the state the calls before it left, whose record then halts the block. -/
theorem raiseEndsTheCommandAndHalts : Obligations.RaiseEndsTheCommandAndHalts := by
  refine ⟨fun s i before after t code hdone => ?_, fun _ _ => ⟨rfl, rfl⟩⟩
  refine ⟨raiseFault code i.opcode t, ?_, rfl, rfl, (spc_of_runActions_done hdone :), haltedBlockHasNoStep _ _ rfl⟩
  rw [runActions_append_raise hdone, complete_raised]

end Sys2Proof.Machine
end

section
/-! PROOFS. The commands: the events of each (R110 to R121), the operand bytes that name a flag, a slot and a pin (R64),
and the two outcomes of a setter (R130). -/

namespace Sys2Proof.Machine

/-- Settles O34: configure, bind, and the end of a frame of two bytes. -/
theorem settersConfigureThenBind : Obligations.SettersConfigureThenBind := by
  intro s r b hvalid
  rw [exec_setter_of_valid hvalid]
  rfl

/-- Settles O35: the OP recorded is 0x10 plus the role number. -/
theorem settersFaultOnInvalidPin : Obligations.SettersFaultOnInvalidPin := by
  intro s r b hinvalid
  rw [exec_setter_of_invalid hinvalid, opcode_setter]
  rfl

/-- The parameter names the pins of the pin space that are not absent (R8, R44). -/
theorem pinValid_iff (c : Config) (p : PinId) : c.pinValid p = true ↔ p < 2 ^ c.pinIdWidth ∧ p ∉ c.absentPins := by
  simp [Config.pinValid, Config.hasPin]

/-- Zero-extended operands fit every width from 8 on (R64). -/
theorem hasPin_pinOf {c : Config} (h : 8 ≤ c.pinIdWidth) (b : Byte) : c.hasPin (pinOf b) = true := by
  rw [hasPin_iff]
  exact b.isLt.trans_le (Nat.pow_le_pow_right (by decide) h)

theorem pinOf_ofNat {p : PinId} (h : p < 2 ^ 8) : pinOf (BitVec.ofNat 8 p) = p := by
  rw [pinOf, BitVec.toNat_ofNat, Nat.mod_eq_of_lt h]

theorem pinOf_injective {a b : Byte} (h : pinOf a = pinOf b) : a = b := BitVec.eq_of_toNat_eq h

/-- Settles O36: an operand is its value, so at width 8 operands and pins are the same 256 numbers. -/
theorem pinOperandsNameThePinSpace : Obligations.PinOperandsNameThePinSpace := by
  refine fun c => ⟨fun b => pinValid_iff c _, hasPin_pinOf, fun hwidth p hp => ?_⟩
  rw [hasPin_iff, hwidth] at hp
  exact ⟨BitVec.ofNat 8 p, pinOf_ofNat hp, fun b hb => pinOf_injective (hb.trans (pinOf_ofNat hp).symm)⟩

/-- A command that ran its calls always answers a next state, faulted or not (R155). -/
theorem complete_ne_refused (i : Instr) (r : Run) (reason : Refusal) : complete i r ≠ .refused reason := by
  cases r <;> simp [complete]

/-- Settles O33: the refusal is the branch of the requests no LEN can count. -/
theorem overlongRequestIsRefused : Obligations.OverlongRequestIsRefused := by
  intro s req
  simp only [exec, execRenderValue, Instr.wellFormed, decide_eq_false_iff_not]
  split
  · next hl => simp [hl, complete_ne_refused]
  · next hl => simp [hl]

/-- The DIG4 line is not activated by a slot-draw of another slot, when no other role is on its pin (R102). -/
theorem onEvent_dig4_not_mem_slotDrawEvents {s : State} (hs : EnablesUnaliased s) {k : Int} (hk : k = 1 ∨ k = 2 ∨ k = 3)
    (g : Pattern) (point : Level) : s.onEvent .dig4 ∉ slotDrawEvents s k g point := by
  have hpin : ∀ r, r ≠ .dig4 → s.binding .dig4 ≠ s.binding r := fun r hr =>
    (hs (4, .dig4) (by decide) r (role_mem_all r) hr).symm
  have hlevel := (enInactive_ne_enActive s.config).symm
  rcases hk with rfl | rfl | rfl <;>
    simp [slotDrawEvents, selectEvents, segmentEvents, State.wEvent, hpin, hlevel]

theorem length_errEvents (s : State) : (errEvents s).length = 39 := by
  simp [errEvents, length_slotDrawEvents]

/-- Settles O27: three slot-draws of 13 events, in slots 1 to 3. -/
theorem renderErrorDrawsErr : Obligations.RenderErrorDrawsErr := by
  refine fun s hs => ⟨execRenderError_of_boundConfigured hs, length_errEvents s, fun hunaliased => ?_⟩
  simp only [errEvents, List.mem_append, not_or]
  exact ⟨⟨onEvent_dig4_not_mem_slotDrawEvents hunaliased (by decide) _ _,
    onEvent_dig4_not_mem_slotDrawEvents hunaliased (by decide) _ _⟩,
    onEvent_dig4_not_mem_slotDrawEvents hunaliased (by decide) _ _⟩

theorem flagOf_of_reserved {flag : Byte} (h0 : flag ≠ 0x00#8) (h1 : flag ≠ 0x01#8) : flagOf flag = none := by
  simp [flagOf, h0, h1]

/-- Settles O28: the three readings of FLAG. -/
theorem renderStateDrawsOnOrOff : Obligations.RenderStateDrawsOnOrOff := by
  refine fun s flag => ⟨?_, ?_, fun h0 h1 => execRenderState_of_reserved s (flagOf_of_reserved h0 h1)⟩
  · rintro hs rfl
    exact execRenderState_of_flag hs (b := true) rfl
  · rintro hs rfl
    exact execRenderState_of_flag hs (b := false) rfl

/-- Writes of one level to some pins set the level of exactly those pins (R45). -/
theorem get_replay_writes (qs : List PinId) (v : Level) (ps : Pins) (p : PinId) :
    Pins.get (replay (qs.map fun q => .w q v) ps) p =
      if p ∈ qs then { Pins.get ps p with lvl := some v } else Pins.get ps p := by
  induction qs generalizing ps with
  | nil => rfl
  | cons q qs ih =>
    rw [List.map_cons, replay_cons, ih]
    by_cases hq : p = q
    · subst hq
      simp [Pins.get_write_self]
    · rw [Event.get_effect_of_ne (by simpa [Event.pin?, eq_comm] using hq)]
      simp [hq]

/-- The pins of the four enable lines, in ascending slot order. -/
def enablePins (s : State) : List PinId := digLines.map fun line => s.binding line.2

theorem clearEvents_eq (s : State) : clearEvents s = (enablePins s).map fun q => .w q s.config.enInactive := rfl

/-- CLEAR leaves every enable line inactive, whichever roles share pins (R118). -/
theorem lvl_replay_clearEvents {s : State} {line : Int × Role} (h : line ∈ digLines) (ps : Pins) :
    (Pins.get (replay (clearEvents s) ps) (s.binding line.2)).lvl = some s.config.enInactive := by
  have hmem : s.binding line.2 ∈ enablePins s := List.mem_map.2 ⟨line, h, rfl⟩
  rw [clearEvents_eq, get_replay_writes, if_pos hmem]

theorem activeSlotsIn_replay_clearEvents (s : State) (ps : Pins) :
    activeSlotsIn s (replay (clearEvents s) ps) = [] := by
  rw [activeSlotsIn, List.map_eq_nil_iff, List.filter_eq_nil_iff]
  intro line hline
  simp [lvl_replay_clearEvents hline]

/-- Settles O29: four writes of the inactive level, after which no enable line is active. -/
theorem clearDeactivatesEveryEnable : Obligations.ClearDeactivatesEveryEnable :=
  fun s hs => ⟨execClear_of_boundConfigured hs, activeSlotsIn_replay_clearEvents s _⟩

/-- A second CLEAR writes what is already there. -/
theorem get_replay_clearEvents_twice (s : State) (ps : Pins) (p : PinId) :
    Pins.get (replay (clearEvents s) (replay (clearEvents s) ps)) p = Pins.get (replay (clearEvents s) ps) p := by
  simp only [clearEvents_eq, get_replay_writes]
  split <;> rfl

/-- Settles O53: the second CLEAR writes the same levels to the same pins. -/
theorem clearTwiceIsClearOnce : Obligations.ClearTwiceIsClearOnce := by
  intro s hs
  have ht : BoundConfigured (s.emitted (clearEvents s) 1) := State.boundConfigured_withEvents hs (clearEvents s)
  refine ⟨_, _, execClear_of_boundConfigured hs, execClear_of_boundConfigured ht, fun p => ?_, ?_, ?_⟩
  · exact get_replay_clearEvents_twice s s.gpio.pins p
  · exact activeSlotsIn_replay_clearEvents s _
  · simp [clearEvents]

/-- Settles O30: a select of the operand's slot; outside 1..4 it makes no call, whatever the pins. -/
theorem selectDigitSelectsItsSlot : Obligations.SelectDigitSelectsItsSlot := by
  refine fun s slot => ⟨fun hs _ _ => execSelectDigit_of_boundConfigured hs slot, fun houtside => ?_⟩
  have hslot : ¬ (1 ≤ slotOf slot ∧ slotOf slot ≤ 4) := by
    unfold slotOf
    rcases houtside with rfl | h
    · decide
    · bv_omega
  rw [exec, execSelectDigit, selectDigit_of_outside s.config hslot, runActions_nil, complete_done]
  rfl

end Sys2Proof.Machine
end

section
/-! PROOFS. What a valid request holds (R80 to R83, R86), and the events of a request, character by character, from any
slot counter (R111) and in the closed form (R112). -/

namespace Sys2Proof.Machine

/-- What passes the Validator (R80 to R83). -/
theorem valid_iff (req : List Byte) : valid req = true ↔
    (∀ c ∈ req, isDigit c = true ∨ c = 0x2E#8) ∧ NoAdjacentPoints req ∧ req.countP isDigit ≤ 4 ∧
      req.count 0x2E#8 ≤ 4 := by
  simp [valid, validScan_iff_passesFrom, PassesFrom]

/-- Digits and points are all the characters there are (R81). -/
theorem length_eq_digits_add_points {req : List Byte} (h : ∀ c ∈ req, isDigit c = true ∨ c = 0x2E#8) :
    req.length = req.countP isDigit + req.count 0x2E#8 := by
  induction req with
  | nil => rfl
  | cons c rest ih =>
    have hrest := ih fun x hx => h x (List.mem_cons_of_mem c hx)
    rcases h c List.mem_cons_self with hd | rfl
    · rw [List.length_cons, List.countP_cons_of_pos hd, List.count_cons_of_ne (ne_point_of_isDigit hd), hrest]
      omega
    · rw [List.length_cons, List.countP_cons_of_neg (by simp), List.count_cons_self, hrest, Nat.add_assoc]

theorem length_le_of_valid {req : List Byte} (h : valid req = true) : req.length ≤ 8 := by
  obtain ⟨hchars, -, hdigits, hpoints⟩ := (valid_iff req).1 h
  rw [length_eq_digits_add_points hchars]
  omega

/-- Settles O14: at most four digits and four points, and nothing else. -/
theorem longRequestsFail : Obligations.LongRequestsFail := by
  intro req hlong
  by_contra hvalid
  exact absurd (length_le_of_valid (Bool.eq_true_of_not_eq_false hvalid)) (Nat.not_le.2 hlong)

/-- The pattern of a digit character (R93). -/
def State.digitGlyph (s : State) (c : Byte) : Pattern := (s.config.glyphLut[c.toNat - 0x30]?).getD 0#7

theorem State.digitGlyph_eq (s : State) {c : Byte} {n : Nat} (hkey : digitKey c = n) (hn : n < 15) :
    s.digitGlyph c = s.config.glyphLut[n] := by
  subst hkey
  exact congrArg (·.getD 0#7) (Vector.getElem?_eq_getElem hn)

/-- The slot counter after the characters `pre` of a request (R106, R111, R112). -/
def counterAfter (s : State) (pre : List Byte) : Int := 1 + slotBase s pre pre.length

/-- The slot of a character depends on those before it alone (R112). -/
theorem slotBase_append (s : State) (pre rest : List Byte) :
    slotBase s (pre ++ rest) pre.length = slotBase s pre pre.length := by
  simp [slotBase, digitsBefore]

@[simp] theorem counterAfter_nil (s : State) : counterAfter s [] = 1 := by
  unfold counterAfter slotBase
  cases s.config.dpSlotPolicy <;> rfl

/-- Under NET_ZERO the counter is one past the digits drawn (R106). -/
theorem counterAfter_of_netZero {s : State} (h : s.config.dpSlotPolicy = .netZero) (pre : List Byte) :
    counterAfter s pre = 1 + (pre.countP isDigit : Nat) := by
  simp [counterAfter, slotBase, digitsBefore, h]

theorem counterAfter_of_drift {s : State} (h : s.config.dpSlotPolicy = .drift) (pre : List Byte) :
    counterAfter s pre = 1 + (pre.length : Nat) := by
  simp [counterAfter, slotBase, h]

/-- A digit advances the counter under either policy (R111). -/
theorem counterAfter_append_digit (s : State) (pre : List Byte) {c : Byte} (hd : isDigit c = true) :
    counterAfter s (pre ++ [c]) = counterAfter s pre + 1 := by
  cases hpolicy : s.config.dpSlotPolicy with
  | netZero => simp [counterAfter_of_netZero hpolicy, hd, Int.add_assoc]
  | drift => simp [counterAfter_of_drift hpolicy, Int.add_assoc]

/-- A point leaves the counter as `DrawPoint` does (R106). -/
theorem counterAfter_append_point (s : State) (pre : List Byte) {c : Byte} (hd : isDigit c = false) :
    counterAfter s (pre ++ [c]) = (drawPoint s.config (counterAfter s pre)).2 := by
  rw [drawPoint_counter]
  cases hpolicy : s.config.dpSlotPolicy with
  | netZero => simp [counterAfter_of_netZero hpolicy, hd]
  | drift => simp [counterAfter_of_drift hpolicy, Int.add_assoc]

/-- The events of one character at the counter `k` (R111). -/
def charEventsAt (s : State) (k : Int) (c : Byte) : List Event :=
  if isDigit c then slotDrawEvents s k (s.digitGlyph c) s.config.dpUnlit else pointEvents s (k - 1)

theorem charEventsAt_digit (s : State) (k : Int) {c : Byte} (hd : isDigit c = true) :
    charEventsAt s k c = slotDrawEvents s k (s.digitGlyph c) s.config.dpUnlit := if_pos hd

theorem charEventsAt_point (s : State) (k : Int) : charEventsAt s k 0x2E#8 = pointEvents s (k - 1) := rfl

/-- R112's closed form is the counter's slot. -/
theorem charEvents_eq (s : State) (pre rest : List Byte) (c : Byte) :
    charEvents s (pre ++ rest) c pre.length = charEventsAt s (counterAfter s pre) c := by
  rw [charEvents, slotBase_append, charEventsAt, counterAfter, add_sub_cancel_left]
  rfl

/-- A digit at the counter `k` draws its own glyph in slot `k`, and the counter advances (R93, R111). -/
theorem eventsOf_renderDigits_cons_digit (s : State) (k : Int) {c : Byte} (rest : List Byte) (hd : isDigit c = true) :
    eventsOf s (renderDigits s.config k (c :: rest)) =
      charEventsAt s k c ++ eventsOf s (renderDigits s.config (k + 1) rest) := by
  have hkey : digitKey c < 15 := (digitKey_lt hd).trans (by decide)
  rw [renderDigits, if_pos hd, eventsOf_append, eventsOf_drawGlyph s k hkey, charEventsAt_digit s k hd,
    s.digitGlyph_eq rfl hkey]
  rfl

/-- The rest of a request draws from the counter its first character leaves. -/
theorem eventsOf_renderDigits_cons (s : State) (pre : List Byte) (c : Byte) (rest : List Byte) :
    eventsOf s (renderDigits s.config (counterAfter s pre) (c :: rest)) =
      charEventsAt s (counterAfter s pre) c ++ eventsOf s (renderDigits s.config (counterAfter s (pre ++ [c])) rest) := by
  cases hd : isDigit c with
  | true => rw [eventsOf_renderDigits_cons_digit s _ rest hd, counterAfter_append_digit s pre hd]
  | false =>
    rw [eventsOf_renderDigits_point s _ rest hd, counterAfter_append_point s pre hd, charEventsAt, hd]
    rfl

/-- The rest of a request draws from the counter the characters before it leave. -/
theorem eventsOf_renderDigits_append (s : State) (pre mid rest : List Byte) :
    eventsOf s (renderDigits s.config (counterAfter s pre) (mid ++ rest)) =
      eventsOf s (renderDigits s.config (counterAfter s pre) mid) ++
        eventsOf s (renderDigits s.config (counterAfter s (pre ++ mid)) rest) := by
  induction mid generalizing pre with
  | nil => rw [List.append_nil]; rfl
  | cons c mid ih => simp only [List.cons_append, eventsOf_renderDigits_cons, ih, List.append_assoc, List.nil_append]

/-- From the counter that `pre` leaves, the rest of a request draws as R112's closed form says. -/
theorem eventsOf_renderDigits_eq_flatMap (s : State) (pre rest : List Byte) :
    eventsOf s (renderDigits s.config (counterAfter s pre) rest) =
      (rest.zipIdx pre.length).flatMap fun ci => charEvents s (pre ++ rest) ci.1 ci.2 := by
  induction rest generalizing pre with
  | nil => rfl
  | cons c rest ih =>
    have htail := ih (pre ++ [c])
    rw [List.append_assoc, List.singleton_append, List.length_append, List.length_singleton] at htail
    rw [eventsOf_renderDigits_cons, htail, List.zipIdx_cons, List.flatMap_cons, charEvents_eq]

theorem eventsOf_renderDigits_one (s : State) (req : List Byte) :
    eventsOf s (renderDigits s.config 1 req) = requestEvents s req := by
  simpa [requestEvents] using eventsOf_renderDigits_eq_flatMap s [] req

/-- Settles O31: the counter's slots are those of the closed form. -/
theorem validRequestDrawsEachCharacterInItsSlot : Obligations.ValidRequestDrawsEachCharacterInItsSlot := by
  intro s req hs hlen hvalid
  rw [← eventsOf_renderDigits_one]
  exact execRenderValue_of_valid hs hlen hvalid

/-- A valid request completes with the events drawn from counter 1 on. -/
theorem exec_renderValue_of_valid {s : State} (hs : BoundConfigured s) {req : List Byte} (hvalid : valid req = true) :
    exec (.renderValue req) s = .next (s.emitted (eventsOf s (renderDigits s.config 1 req)) (2 + req.length)) :=
  execRenderValue_of_valid hs ((length_le_of_valid hvalid).trans (by decide)) hvalid

theorem exec_renderValue_singleton {s : State} (hs : BoundConfigured s) {c : Byte} (hvalid : valid [c] = true) :
    exec (.renderValue [c]) s = .next (s.emitted (charEventsAt s 1 c) 3) := by
  have hevents := eventsOf_renderDigits_cons s [] c []
  rw [counterAfter_nil] at hevents
  rw [exec_renderValue_of_valid hs hvalid, hevents]
  simp [renderDigits]

/-- Settles O58: the slot before the first is 0, whose select makes no event. -/
theorem leadingPointSelectsNothing : Obligations.LeadingPointSelectsNothing := by
  intro s hs
  rw [exec_renderValue_singleton hs (by decide), charEventsAt_point]
  rfl

theorem isDigit_ofNat (n : Fin 10) : isDigit (BitVec.ofNat 8 (0x30 + n.val)) = true := by revert n; decide

theorem valid_singleton_digit {c : Byte} (hd : isDigit c = true) : valid [c] = true := by
  rw [valid, validScan_digit 0 0 false [] hd]
  rfl

/-- One digit draws its glyph in slot 1, the point unlit (R111). -/
theorem exec_renderValue_digit {s : State} (hs : BoundConfigured s) (n : Fin 10) :
    exec (.renderValue [BitVec.ofNat 8 (0x30 + n.val)]) s =
      .next (s.emitted (slotDrawEvents s 1 s.config.glyphLut[n.val] s.config.dpUnlit) 3) := by
  have hd := isDigit_ofNat n
  rw [exec_renderValue_singleton hs (valid_singleton_digit hd), charEventsAt_digit s 1 hd,
    s.digitGlyph_eq (digitKey_ofNat (by omega)) (by omega)]

theorem exec_selectDigit {s : State} (hs : BoundConfigured s) {slot : Byte} {evs : List Event}
    (h : selectEvents s slot.toNat = evs) : exec (.selectDigit slot) s = .next (s.emitted evs 2) :=
  h ▸ execSelectDigit_of_boundConfigured hs slot

/-- Settles O60: each command's events, with the two levels written out. -/
theorem levelsTheSourceFixes : Obligations.LevelsTheSourceFixes := by
  intro s hs hdp hen
  have hoff : s.config.enInactive = .low := by rw [Config.enInactive, hen]; rfl
  have hunlit : s.config.dpUnlit = .high := by rw [Config.dpUnlit, hdp]; rfl
  refine ⟨?_, ?_, ?_, ?_, ?_, ?_, fun n => ?_⟩
  · rw [exec, execClear_of_boundConfigured hs]
    simp [clearEvents, hoff]
  · exact exec_selectDigit hs (by simp [selectEvents, hoff, hen])
  · exact exec_selectDigit hs (by simp [selectEvents, hoff, hen])
  · exact exec_selectDigit hs (by simp [selectEvents, hoff, hen])
  · exact exec_selectDigit hs (by simp [selectEvents, hoff, hen])
  · rw [leadingPointSelectsNothing s hs, hdp]
  · rw [exec_renderValue_digit hs n]
    simp [slotDrawEvents, selectEvents, hoff, hen, hunlit]

end Sys2Proof.Machine
end

section
/-! PROOFS. How many events and how many holds a command emits (R122, R186, R189). -/

namespace Sys2Proof.Machine

theorem length_pointEvents (s : State) (k : Int) :
    (pointEvents s k).length = if 1 ≤ k ∧ k ≤ 4 then 6 else 2 := by
  simp only [pointEvents, List.length_append, length_selectEvents]
  split <;> rfl

theorem length_slotDrawEvents_le (s : State) (k : Int) (g : Pattern) (point : Level) :
    (slotDrawEvents s k g point).length ≤ 13 := by
  rw [length_slotDrawEvents]
  split <;> decide

theorem length_pointEvents_le (s : State) (k : Int) : (pointEvents s k).length ≤ 6 := by
  rw [length_pointEvents]
  split <;> decide

/-- At most 13 events a digit and 6 a point, from any counter. -/
theorem length_eventsOf_renderDigits_le (s : State) (pre rest : List Byte)
    (hchars : ∀ c ∈ rest, isDigit c = true ∨ c = 0x2E#8) :
    (eventsOf s (renderDigits s.config (counterAfter s pre) rest)).length ≤
      13 * rest.countP isDigit + 6 * rest.count 0x2E#8 := by
  induction rest generalizing pre with
  | nil => simp [renderDigits]
  | cons c rest ih =>
    have hrest := ih (pre ++ [c]) fun x hx => hchars x (List.mem_cons_of_mem c hx)
    rw [eventsOf_renderDigits_cons, List.length_append]
    rcases hchars c List.mem_cons_self with hd | rfl
    · have hfirst := length_slotDrawEvents_le s (counterAfter s pre) (s.digitGlyph c) s.config.dpUnlit
      rw [charEventsAt_digit s _ hd, List.countP_cons_of_pos hd, List.count_cons_of_ne (ne_point_of_isDigit hd)]
      omega
    · have hfirst := length_pointEvents_le s (counterAfter s pre - 1)
      rw [charEventsAt_point, List.countP_cons_of_neg (by simp), List.count_cons_self]
      omega

/-- R122's bound on the events of a command. -/
def eventBound : Instr → Nat
  | .renderValue req => if valid req then 76 else 39
  | .renderState _ | .renderError => 39
  | .clear | .selectDigit _ => 4
  | _ => 1

theorem eventBound_le (i : Instr) : eventBound i ≤ 76 := by
  cases i
  case renderValue req =>
    rw [eventBound]
    split <;> decide
  all_goals simp [eventBound]

theorem eventBound_setter (r : Role) (p : Byte) : eventBound (setter r p) = 1 := by cases r <;> rfl

theorem length_onEvents (s : State) : (onEvents s).length = 26 := by
  simp [onEvents, length_slotDrawEvents]

theorem length_offEvents (s : State) : (offEvents s).length = 39 := by
  simp [offEvents, length_slotDrawEvents]

theorem length_selectEvents_le (s : State) (k : Int) : (selectEvents s k).length ≤ 4 := by
  rw [length_selectEvents]
  split <;> decide

theorem length_renderDigits_le_of_valid (s : State) {req : List Byte} (hvalid : valid req = true) :
    (eventsOf s (renderDigits s.config 1 req)).length ≤ 76 := by
  obtain ⟨hchars, -, hdigits, hpoints⟩ := (valid_iff req).1 hvalid
  have hle := length_eventsOf_renderDigits_le s [] req hchars
  rw [counterAfter_nil] at hle
  omega

/-- The trace after an outcome that is known. -/
theorem exists_events_of_emitted {i : Instr} {s t : State} {evs : List Event} {len bound : Nat}
    (h : exec i s = .next t) (h' : exec i s = .next (s.emitted evs len)) (hle : evs.length ≤ bound) :
    ∃ evs, t.gpio.trace = s.gpio.trace ++ evs ∧ evs.length ≤ bound := by
  obtain rfl := Host.Outcome.next.inj (h.symm.trans h')
  exact ⟨evs, rfl, hle⟩

/-- Every command keeps its bound (R122). -/
theorem exec_events_le {i : Instr} {s t : State} (hs : BoundConfigured s) (h : exec i s = .next t) :
    ∃ evs, t.gpio.trace = s.gpio.trace ++ evs ∧ evs.length ≤ eventBound i := by
  rcases instr_cases i with ⟨req, rfl⟩ | ⟨flag, rfl⟩ | rfl | rfl | ⟨slot, rfl⟩ | ⟨r, p, rfl⟩
  · cases hv : valid req with
    | true =>
      refine exists_events_of_emitted h (exec_renderValue_of_valid hs hv) ?_
      simpa [eventBound, hv] using length_renderDigits_le_of_valid s hv
    | false =>
      by_cases hl : req.length ≤ 255
      · refine exists_events_of_emitted h (execRenderValue_of_invalid hs hl hv) ?_
        simp [eventBound, hv, length_errEvents]
      · simp [exec, execRenderValue, hl] at h
  · cases hf : flagOf flag with
    | none =>
      obtain rfl := Host.Outcome.next.inj (h.symm.trans (execRenderState_of_reserved s hf))
      exact ⟨[], by simp, Nat.zero_le _⟩
    | some b =>
      refine exists_events_of_emitted h (execRenderState_of_flag hs hf) ?_
      cases b <;> simp [eventBound, length_onEvents, length_offEvents]
  · exact exists_events_of_emitted h (execRenderError_of_boundConfigured hs) (length_errEvents s).le
  · exact exists_events_of_emitted h (execClear_of_boundConfigured hs) le_rfl
  · exact exists_events_of_emitted h (execSelectDigit_of_boundConfigured hs slot) (length_selectEvents_le s _)
  · rw [eventBound_setter]
    cases hv : s.config.pinValid (pinOf p) with
    | true =>
      obtain rfl := Host.Outcome.next.inj (h.symm.trans (exec_setter_of_valid hv r))
      exact ⟨[.cfg (pinOf p)], rfl, le_rfl⟩
    | false =>
      obtain rfl := Host.Outcome.next.inj (h.symm.trans (exec_setter_of_invalid hv r))
      exact ⟨[], by simp, Nat.zero_le _⟩

/-- Settles O54: the bounds of each family of commands are those of its commands. -/
theorem commandsEmitBoundedEvents : Obligations.CommandsEmitBoundedEvents := by
  intro s t i hs hexec
  obtain ⟨evs, htrace, hle⟩ := exec_events_le hs hexec
  refine ⟨evs, htrace, hle.trans (eventBound_le i), ?_, ?_, ?_⟩
  · rintro (rfl | ⟨flag, rfl⟩ | ⟨req, rfl, hv⟩)
    · exact hle
    · exact hle
    · simpa [eventBound, hv] using hle
  · rintro (rfl | ⟨slot, rfl⟩)
    · exact hle
    · exact hle
  · rintro ⟨r, p, rfl⟩
    exact hle.trans (eventBound_setter r p).le

/-! Holds. -/

/-- The settle holds among some events (R189). -/
def holdCount (s : State) (evs : List Event) : Nat := evs.count (.h s.config.settle)

@[simp] theorem holdCount_append (s : State) (a b : List Event) :
    holdCount s (a ++ b) = holdCount s a + holdCount s b := List.count_append

@[simp] theorem holdCount_selectEvents (s : State) (k : Int) : holdCount s (selectEvents s k) = 0 := by
  unfold selectEvents
  split_ifs <;> simp [holdCount, State.wEvent]

@[simp] theorem holdCount_slotDrawEvents (s : State) (k : Int) (g : Pattern) (point : Level) :
    holdCount s (slotDrawEvents s k g point) = 1 := by
  simp only [slotDrawEvents, holdCount_append, holdCount_selectEvents]
  simp [holdCount, segmentEvents, State.wEvent]

@[simp] theorem holdCount_pointEvents (s : State) (k : Int) : holdCount s (pointEvents s k) = 1 := by
  simp only [pointEvents, holdCount_append, holdCount_selectEvents]
  simp [holdCount, State.wEvent]

theorem holdCount_errEvents (s : State) : holdCount s (errEvents s) = 3 := by simp [errEvents]

theorem holdCount_onEvents (s : State) : holdCount s (onEvents s) = 2 := by simp [onEvents]

theorem holdCount_offEvents (s : State) : holdCount s (offEvents s) = 3 := by simp [offEvents]

theorem holdCount_clearEvents (s : State) : holdCount s (clearEvents s) = 0 := by
  simp [holdCount, clearEvents, State.wEvent]

/-- Every character holds once, digit or point (R104, R106). -/
theorem holdCount_charEventsAt (s : State) (k : Int) (c : Byte) : holdCount s (charEventsAt s k c) = 1 := by
  unfold charEventsAt
  split
  · exact holdCount_slotDrawEvents s k _ _
  · exact holdCount_pointEvents s _

theorem holdCount_renderDigits (s : State) (pre rest : List Byte) :
    holdCount s (eventsOf s (renderDigits s.config (counterAfter s pre) rest)) = rest.length := by
  induction rest generalizing pre with
  | nil => rfl
  | cons c rest ih =>
    rw [eventsOf_renderDigits_cons, holdCount_append, holdCount_charEventsAt, ih, List.length_cons, Nat.add_comm]

/-- Settles O55: one hold for each slot-draw and each point, none for a select or a write. -/
theorem holdsPerCommand : Obligations.HoldsPerCommand := by
  refine fun s hs => ⟨fun req hlen hvalid => ?_, ?_, ?_, ?_⟩
  · have hholds := holdCount_renderDigits s [] req
    rw [counterAfter_nil] at hholds
    exact ⟨_, _, execRenderValue_of_valid hs hlen hvalid, rfl, hholds⟩
  · rintro i (rfl | rfl | ⟨req, rfl, hlen, hinvalid⟩)
    · exact ⟨_, _, execRenderError_of_boundConfigured hs, rfl, holdCount_errEvents s⟩
    · exact ⟨_, _, execRenderState_of_flag hs (b := false) rfl, rfl, holdCount_offEvents s⟩
    · exact ⟨_, _, execRenderValue_of_invalid hs hlen hinvalid, rfl, holdCount_errEvents s⟩
  · exact ⟨_, _, execRenderState_of_flag hs (b := true) rfl, rfl, holdCount_onEvents s⟩
  · rintro i (rfl | ⟨slot, rfl⟩ | ⟨r, b, rfl, hvalid⟩)
    · exact ⟨_, _, execClear_of_boundConfigured hs, rfl, holdCount_clearEvents s⟩
    · exact ⟨_, _, execSelectDigit_of_boundConfigured hs slot, rfl, holdCount_selectEvents s _⟩
    · exact ⟨[.cfg (pinOf b)], _, exec_setter_of_valid hvalid r, rfl, by simp⟩

/-! The exact count under NET_ZERO. -/

/-- Once a digit has been drawn, every slot the rest of a valid request selects is one of the four (R107, R112). -/
theorem length_renderDigits_of_netZero {s : State} (hpolicy : s.config.dpSlotPolicy = .netZero) (pre rest : List Byte)
    (hchars : ∀ c ∈ rest, isDigit c = true ∨ c = 0x2E#8)
    (hfirst : pre.countP isDigit = 0 → rest.head? ≠ some 0x2E#8)
    (hdigits : pre.countP isDigit + rest.countP isDigit ≤ 4) :
    (eventsOf s (renderDigits s.config (counterAfter s pre) rest)).length =
      13 * rest.countP isDigit + 6 * rest.count 0x2E#8 := by
  induction rest generalizing pre with
  | nil => rfl
  | cons c rest ih =>
    have hrest := ih (pre ++ [c]) fun x hx => hchars x (List.mem_cons_of_mem c hx)
    have hcounter := counterAfter_of_netZero hpolicy pre
    rw [List.countP_append, List.countP_singleton] at hrest
    rw [eventsOf_renderDigits_cons, List.length_append]
    rcases hchars c List.mem_cons_self with hd | rfl
    · rw [List.countP_cons_of_pos hd] at hdigits
      rw [if_pos hd] at hrest
      rw [charEventsAt_digit s _ hd, length_slotDrawEvents, if_pos (by omega), hrest (by omega) (by omega),
        List.countP_cons_of_pos hd, List.count_cons_of_ne (ne_point_of_isDigit hd)]
      omega
    · have hdrawn : pre.countP isDigit ≠ 0 := fun hnone => hfirst hnone rfl
      rw [List.countP_cons_of_neg (by simp)] at hdigits
      rw [isDigit_point, if_neg (by simp)] at hrest
      rw [charEventsAt_point, length_pointEvents, if_pos (by omega), hrest (by omega) (by omega),
        List.countP_cons_of_neg (by simp), List.count_cons_self]
      omega

/-- Settles O56: only a leading point selects no slot, and the character after it is no point. -/
theorem netZeroEventCountOfAValidRequest : Obligations.NetZeroEventCountOfAValidRequest := by
  intro s req hs hpolicy hlen hvalid
  refine ⟨_, _, execRenderValue_of_valid hs hlen hvalid, rfl, ?_⟩
  obtain ⟨hchars, hadjacent, hdigits, -⟩ := (valid_iff req).1 hvalid
  change _ + _ = 13 * req.countP isDigit + _
  by_cases hhead : req.head? = some 0x2E#8
  · obtain ⟨rest, rfl⟩ := List.head?_eq_some_iff.1 hhead
    have hrest := length_renderDigits_of_netZero hpolicy [0x2E#8] rest
      (fun c hc => hchars c (List.mem_cons_of_mem _ hc)) (fun _ => ((noAdjacentPoints_cons _ _).1 hadjacent).1 rfl)
      (by simpa [List.countP_cons] using hdigits)
    have hevents := eventsOf_renderDigits_cons s [] 0x2E#8 rest
    rw [counterAfter_nil] at hevents
    rw [hevents, List.length_append, charEventsAt_point, length_pointEvents, if_neg (by decide), if_pos hhead,
      List.countP_cons_of_neg (by simp), List.count_cons_self, List.nil_append, hrest]
    omega
  · have hall := length_renderDigits_of_netZero hpolicy [] req hchars (fun _ => hhead) (by simpa using hdigits)
    rw [counterAfter_nil] at hall
    rw [if_neg hhead, hall, Nat.add_zero]

end Sys2Proof.Machine
end

section
/-! PROOFS. What a command leaves as it was (R22, R24, R43, R45, R119, R121, R131). -/

namespace Sys2Proof.Machine

/-- Settles O38: the command completes with sequencer events, which act on bound pins and clear no `cfg`. -/
theorem operationCommandsFrame : Obligations.OperationCommandsFrame := by
  intro s t i hs hnotSetter hflag hexec
  rcases exec_cases_of_boundConfigured hs hexec with
    ⟨evs, hevs, -, rfl⟩ | ⟨r, b, rfl, -, -⟩ | ⟨flag, rfl, hreserved, -⟩ | ⟨r, b, rfl, -, -⟩
  · exact ⟨rfl, rfl, rfl, rfl, rfl, rfl, fun p => SequencerEvent.cfg_replay hevs _ p,
      fun p hp => get_replay_of_unbound hevs hp _⟩
  · exact absurd rfl (hnotSetter r b)
  · rcases hflag flag rfl with rfl | rfl <;> cases hreserved
  · exact absurd rfl (hnotSetter r b)

/-- A run, complete or not, leaves a pin that none of its calls acts on as it was. -/
theorem runActions_pin {as : List Action} {s : State} {p : PinId}
    (h : ∀ a ∈ as, ∀ e ∈ a.events s, e.pin? ≠ some p) :
    ∃ u, (runActions as s = .done u ∨ ∃ code, runActions as s = .raised code u) ∧ u.pin p = s.pin p := by
  induction as generalizing s with
  | nil => exact ⟨s, .inl rfl, rfl⟩
  | cons a rest ih =>
    rcases a.run_cases s with hdone | ⟨code, hraised⟩
    · obtain ⟨u, hu, hpin⟩ := ih (s := s.withEvents (a.events s)) fun b hb => by
        simpa using h b (List.mem_cons_of_mem a hb)
      refine ⟨u, by simpa [runActions, hdone] using hu, hpin.trans ?_⟩
      exact get_replay_of_untouched (h a List.mem_cons_self) s.gpio.pins
    · exact ⟨s, .inr ⟨code, by simp [runActions, hraised]⟩, rfl⟩

/-- The end of the command touches no pin (R27, R155). -/
theorem pin_of_complete_runActions {i : Instr} {as : List Action} {s t : State} {p : PinId}
    (h : ∀ a ∈ as, ∀ e ∈ a.events s, e.pin? ≠ some p) (ht : complete i (runActions as s) = .next t) :
    t.pin p = s.pin p := by
  obtain ⟨u, hdone | ⟨code, hraised⟩, hpin⟩ := runActions_pin h
  · rw [hdone, complete_done] at ht
    obtain rfl := Host.Outcome.next.inj ht
    exact hpin
  · rw [hraised, complete_raised] at ht
    obtain rfl := Host.Outcome.next.inj ht
    exact hpin

/-- A call that writes one of the four enable lines. -/
def Action.IsEnableWrite (a : Action) : Prop := ∃ line ∈ digLines, ∃ v, a = .write line.2 v

theorem isEnableWrite_of_mem_clearSeq {c : Config} {a : Action} (h : a ∈ clearSeq c) : a.IsEnableWrite := by
  obtain ⟨line, hline, rfl⟩ := List.mem_map.1 h
  exact ⟨line, hline, _, rfl⟩

theorem isEnableWrite_of_mem_selectDigit {c : Config} {k : Int} {a : Action} (h : a ∈ selectDigit c k) :
    a.IsEnableWrite := by
  unfold selectDigit at h
  split at h
  · rcases List.mem_append.1 h with h | h <;> obtain ⟨line, hline, rfl⟩ := List.mem_map.1 h <;>
      exact ⟨line, (List.mem_filter.1 hline).1, _, rfl⟩
  · cases h

theorem Action.IsEnableWrite.pin_ne {a : Action} (ha : a.IsEnableWrite) {s : State} {p : PinId}
    (hp : ∀ line ∈ digLines, s.binding line.2 ≠ p) : ∀ e ∈ a.events s, e.pin? ≠ some p := by
  obtain ⟨line, hline, v, rfl⟩ := ha
  simpa [Action.events, State.wEvent, Event.pin?] using hp line hline

/-- Settles O39: their calls write enable lines only, also when one of them faults. -/
theorem clearAndSelectTouchOnlyEnables : Obligations.ClearAndSelectTouchOnlyEnables := by
  rintro s t i (rfl | ⟨slot, rfl⟩) hexec p hp
  · exact pin_of_complete_runActions (fun a ha => (isEnableWrite_of_mem_clearSeq ha).pin_ne hp) hexec
  · exact pin_of_complete_runActions (fun a ha => (isEnableWrite_of_mem_selectDigit ha).pin_ne hp) hexec

/-- Settles O40: one pin is configured and one binding written. -/
theorem settersFrame : Obligations.SettersFrame := by
  intro s t r b hvalid hexec
  obtain rfl := Host.Outcome.next.inj (hexec.symm.trans (exec_setter_of_valid hvalid r))
  exact ⟨rfl, rfl, rfl, rfl, rfl, State.binding_setBinding_self _ _ _,
    fun q hq => State.binding_setBinding_of_ne hq _ _, Pins.get_configure_self _ _,
    fun q hq => Pins.get_put_of_ne hq _ _⟩

end Sys2Proof.Machine
end

section
/-! PROOFS. Reset (R35, R171): the configure events of the default pins, up to the first that is not valid. -/

namespace Sys2Proof.Machine

/-- The configure events of some roles' default pins, in order (R171). -/
def configureEvents (c : Config) (roles : List Role) : List Event := roles.map fun r => .cfg (c.defaultPin r)

theorem configureEvents_eq (c : Config) (roles : List Role) :
    configureEvents c roles = (roles.map c.defaultPin).map .cfg := by simp [configureEvents]

theorem resetWith_binding (c : Config) (bs : List Byte) (r : Role) : (State.resetWith c bs).binding r = c.defaultPin r :=
  rfl

theorem resetWith_gpio (c : Config) (bs : List Byte) :
    (State.resetWith c bs).gpio = (Gpio.configureAll c.pinValid (Role.all.map c.defaultPin) Gpio.initial).1 := rfl

theorem resetWith_fault (c : Config) (bs : List Byte) :
    (State.resetWith c bs).fault = (Gpio.configureAll c.pinValid (Role.all.map c.defaultPin) Gpio.initial).2 := rfl

/-- Reset's loop over valid default pins and what follows them. -/
theorem configureAll_defaultPins {c : Config} {before : List Role} (h : ∀ q ∈ before, c.pinValid (c.defaultPin q) = true)
    (after : List PinId) :
    Gpio.configureAll c.pinValid (before.map c.defaultPin ++ after) Gpio.initial =
      Gpio.configureAll c.pinValid after ⟨replay (configureEvents c before) [], configureEvents c before⟩ := by
  rw [configureAll_append _ _ _ _ (List.forall_mem_map.2 h), configureEvents_eq]
  rfl

section
variable {c : Config} (h : ∀ r ∈ Role.all, c.pinValid (c.defaultPin r) = true) (bs : List Byte)
include h

/-- Reset with valid default pins configures all twelve and raises no fault. -/
theorem configureAll_of_valid_defaultPins :
    Gpio.configureAll c.pinValid (Role.all.map c.defaultPin) Gpio.initial =
      (⟨replay (configureEvents c Role.all) [], configureEvents c Role.all⟩, none) := by
  simpa [Gpio.configureAll] using configureAll_defaultPins h []

theorem resetWith_pins_of_valid : (State.resetWith c bs).gpio.pins = replay (configureEvents c Role.all) [] := by
  rw [resetWith_gpio, configureAll_of_valid_defaultPins h]

theorem resetWith_trace_of_valid : (State.resetWith c bs).gpio.trace = configureEvents c Role.all := by
  rw [resetWith_gpio, configureAll_of_valid_defaultPins h]

theorem resetWith_fault_of_valid : (State.resetWith c bs).fault = none := by
  rw [resetWith_fault, configureAll_of_valid_defaultPins h]

/-- A bound pin is an output of unknown level (R35). -/
theorem resetWith_pin_of_bound {p : PinId} (hp : ∃ r, c.defaultPin r = p) :
    (State.resetWith c bs).pin p = ⟨true, none⟩ := by
  obtain ⟨r, rfl⟩ := hp
  rw [State.pin, resetWith_pins_of_valid h, configureEvents_eq]
  exact get_replay_configures _ _ _ (.inl (List.mem_map_of_mem (role_mem_all r)))

/-- No other pin is touched (R35). -/
theorem resetWith_pin_of_unbound {p : PinId} (hp : ¬ ∃ r, c.defaultPin r = p) :
    (State.resetWith c bs).pin p = ⟨false, none⟩ := by
  rw [State.pin, resetWith_pins_of_valid h, get_replay_of_untouched, Pins.get_nil]
  · rfl
  · intro e he
    obtain ⟨r, -, rfl⟩ := List.mem_map.1 he
    simpa [Event.pin?] using fun hr => hp ⟨r, hr⟩

theorem boundConfigured_resetWith : BoundConfigured (State.resetWith c bs) := by
  intro r _
  rw [resetWith_binding, resetWith_pin_of_bound h bs ⟨r, rfl⟩]

theorem inPinSpace_resetWith : InPinSpace (State.resetWith c bs) := by
  rw [InPinSpace, resetWith_config, resetWith_pins_of_valid h]
  refine ⟨fun r hr => hasPin_of_pinValid (h r hr), ?_⟩
  refine forall_replay (P := fun p => c.hasPin p = true) (by simp) fun ev hev p hp => ?_
  obtain ⟨r, hr, rfl⟩ := List.mem_map.1 hev
  obtain rfl : c.defaultPin r = p := by simpa [Event.pin?] using hp
  exact hasPin_of_pinValid (h r hr)

theorem wf_resetWith : (State.resetWith c bs).gpio.pins.wf := by
  rw [resetWith_pins_of_valid h]
  exact wf_replay ⟨List.Pairwise.nil, by simp⟩ _

theorem traceExplainsPins_resetWith : TraceExplainsPins (State.resetWith c bs) := by
  rw [TraceExplainsPins, resetWith_pins_of_valid h, resetWith_trace_of_valid h]

end

/-- Settles O1: the loop over twelve valid pins. -/
theorem resetLeavesSpecValues : Obligations.ResetLeavesSpecValues := by
  intro c bs hvalid
  have h : ∀ r ∈ Role.all, c.pinValid (c.defaultPin r) = true := fun r _ => hvalid r
  refine ⟨resetWith_binding c bs, fun p hp => resetWith_pin_of_bound h bs hp,
    fun p hp => resetWith_pin_of_unbound h bs hp, rfl, resetWith_fault_of_valid h bs, rfl, rfl, rfl,
    resetWith_trace_of_valid h bs⟩

/-- The loop ends at the first default pin that is not valid (R155, R171). -/
theorem configureAll_of_invalid_defaultPin {c : Config} {before after : List Role} {r : Role}
    (hsplit : Role.all = before ++ r :: after) (hbefore : ∀ q ∈ before, c.pinValid (c.defaultPin q) = true)
    (hinvalid : c.pinValid (c.defaultPin r) = false) :
    Gpio.configureAll c.pinValid (Role.all.map c.defaultPin) Gpio.initial =
      (⟨replay (configureEvents c before) [], configureEvents c before⟩, some .invalidPin) := by
  rw [hsplit, List.map_append, configureAll_defaultPins hbefore, List.map_cons, configureAll_of_invalid _ _ _ _ hinvalid]

/-- Settles O2: reset's loop ends with the fault that then halts the block. -/
theorem resetHaltsAtFirstInvalidDefaultPin : Obligations.ResetHaltsAtFirstInvalidDefaultPin := by
  intro c bs before after r hsplit hbefore hinvalid
  have hloop := configureAll_of_invalid_defaultPin hsplit hbefore hinvalid
  have hfault : (State.resetWith c bs).fault = some .invalidPin := by rw [resetWith_fault, hloop]
  have htrace : (State.resetWith c bs).gpio.trace = configureEvents c before := by rw [resetWith_gpio, hloop]
  exact ⟨hfault, rfl, rfl, rfl, resetWith_binding c bs, htrace, haltedBlockHasNoStep _ _ hfault⟩

/-- The default parameters meet what the host must provide (R9, R96, R174). -/
theorem wf_default : Config.wf Config.default := by decide

/-- Settles O3: each invariant holds after any reset with valid default pins. -/
theorem resetMeetsTheInvariants : Obligations.ResetMeetsTheInvariants :=
  have hvalid := wf_default.1
  ⟨boundConfigured_resetWith hvalid [], inPinSpace_resetWith hvalid [], wf_resetWith hvalid [],
    traceExplainsPins_resetWith hvalid [], fun _ => ⟨rfl, rfl⟩, wf_default⟩

/-- Settles O18: the fifteen rows, read bit by bit. -/
theorem defaultGlyphsHaveTheirSegments : Obligations.DefaultGlyphsHaveTheirSegments := by
  unfold Obligations.DefaultGlyphsHaveTheirSegments
  decide

end Sys2Proof.Machine
end

section
/-! PROOFS. The levels a select, a slot-draw and a point leave on the enable, point and segment lines (R102, R104, R106,
R107, R116). -/

namespace Sys2Proof.Machine

/-- The level on the pin of a role (R25). -/
abbrev lineLevel (s : State) (ps : Pins) (r : Role) : Option Level := (Pins.get ps (s.binding r)).lvl

theorem State.emitted_roleLevel (s : State) (evs : List Event) (len : Nat) (r : Role) :
    (s.emitted evs len).roleLevel r = lineLevel s (replay evs s.gpio.pins) r := rfl

theorem State.emitted_activeSlots (s : State) (evs : List Event) (len : Nat) :
    (s.emitted evs len).activeSlots = activeSlotsIn s (replay evs s.gpio.pins) := rfl

/-- No event of the list acts on the pin of the role. -/
def Avoids (s : State) (evs : List Event) (r : Role) : Prop := ∀ e ∈ evs, e.pin? ≠ some (s.binding r)

theorem lineLevel_replay_of_avoids {s : State} {evs : List Event} {r : Role} (h : Avoids s evs r) (ps : Pins) :
    lineLevel s (replay evs ps) r = lineLevel s ps r := by
  rw [lineLevel, get_replay_of_untouched h]

theorem avoids_wEvent {s : State} {q r : Role} (h : s.binding q ≠ s.binding r) (v : Level) :
    Avoids s [s.wEvent q v] r := by
  simpa [Avoids, State.wEvent, Event.pin?] using h

theorem avoids_hold (s : State) (n : Nat) (r : Role) : Avoids s [.h n] r := by simp [Avoids, Event.pin?]

/-- A write sets the level of its own pin alone (R45). -/
theorem lvl_write (ps : Pins) (p q : PinId) (v : Level) :
    (Pins.get ((Event.w p v).effect ps) q).lvl = if q = p then some v else (Pins.get ps q).lvl := by
  split
  · next h => rw [h, Pins.get_write_self]
  · next h => rw [Event.get_effect_of_ne (by simpa [Event.pin?, eq_comm] using h)]

theorem lineLevel_wEvent_self (s : State) (ps : Pins) (r : Role) (v : Level) :
    lineLevel s (replay [s.wEvent r v] ps) r = some v := by
  rw [replay_cons, replay_nil, lineLevel, State.wEvent, lvl_write, if_pos rfl]

/-- A configure makes the level of its own pin unknown (R44). -/
theorem lvl_configure (ps : Pins) (p q : PinId) :
    (Pins.get ((Event.cfg p).effect ps) q).lvl = if q = p then none else (Pins.get ps q).lvl := by
  split
  · next h => rw [h, Pins.get_configure_self]
  · next h => rw [Event.get_effect_of_ne (by simpa [Event.pin?, eq_comm] using h)]

/-- The enable line of slot `k` is active and the three others are inactive. -/
def OnlySlot (s : State) (k : Int) (ps : Pins) : Prop :=
  ∀ line ∈ digLines, lineLevel s ps line.2 = some (if line.1 = k then s.config.enActive else s.config.enInactive)

theorem activeSlotsIn_of_onlySlot {s : State} {k : Int} {ps : Pins} (h : OnlySlot s k ps) :
    activeSlotsIn s ps = (digLines.filter fun line => line.1 = k).map (·.1) := by
  unfold activeSlotsIn
  refine congrArg _ (List.filter_congr fun line hline => ?_)
  rw [show (Pins.get ps (s.binding line.2)).lvl = _ from h line hline]
  split <;> simp [*]

/-- Events off the enable lines leave the selection as it is. -/
theorem onlySlot_replay_of_avoids {s : State} {k : Int} {evs : List Event}
    (h : ∀ line ∈ digLines, Avoids s evs line.2) {ps : Pins} (hps : OnlySlot s k ps) : OnlySlot s k (replay evs ps) :=
  fun line hline => (lineLevel_replay_of_avoids (h line hline) ps).trans (hps line hline)

/-- Every event of a select writes an enable line (R102). -/
theorem eq_wEvent_of_mem_selectEvents {s : State} {k : Int} {e : Event} (h : e ∈ selectEvents s k) :
    ∃ line ∈ digLines, ∃ v, e = s.wEvent line.2 v := by
  rw [← eventsOf_selectDigit] at h
  obtain ⟨a, ha, he⟩ := List.mem_flatMap.1 h
  obtain ⟨line, hline, v, rfl⟩ := isEnableWrite_of_mem_selectDigit ha
  exact ⟨line, hline, v, List.mem_singleton.1 he⟩

/-- The seven segment writes, in line order (R94). -/
theorem segmentEvents_eq (s : State) (g : Pattern) :
    segmentEvents s g = segLines.map fun line => s.wEvent line.2 (s.segLevel g line.1) := rfl

theorem ne_of_mem_segLines_of_mem_digLines : ∀ seg ∈ segLines, ∀ line ∈ digLines, seg.2 ≠ line.2 := by decide

theorem dp_ne_of_mem_digLines : ∀ line ∈ digLines, Role.dp ≠ line.2 := by decide

theorem ne_dp_of_mem_segLines : ∀ seg ∈ segLines, seg.2 ≠ Role.dp := by decide

section
variable {s : State} (hu : EnablesUnaliased s)
include hu

/-- A role that is no enable line is on no enable line's pin. -/
theorem binding_ne_of_unaliased {r : Role} {line : Int × Role} (hline : line ∈ digLines) (hr : r ≠ line.2) :
    s.binding r ≠ s.binding line.2 :=
  hu line hline r (role_mem_all r) hr

theorem lineLevel_wEvent_of_unaliased {line : Int × Role} (hline : line ∈ digLines) (ps : Pins) (r : Role) (v : Level) :
    lineLevel s ((s.wEvent r v).effect ps) line.2 = if line.2 = r then some v else lineLevel s ps line.2 := by
  rw [lineLevel, State.wEvent, lvl_write]
  by_cases h : line.2 = r
  · rw [if_pos h, if_pos (congrArg _ h)]
  · rw [if_neg h, if_neg (binding_ne_of_unaliased hu hline (Ne.symm h)).symm]

/-- A select of one of the four slots leaves that slot alone active, whatever the levels were (R102). -/
theorem onlySlot_replay_selectEvents {k : Int} (hk : 1 ≤ k ∧ k ≤ 4) (ps : Pins) :
    OnlySlot s k (replay (selectEvents s k) ps) := by
  intro line hline
  have hlevel := lineLevel_wEvent_of_unaliased hu hline
  have hk : k = 1 ∨ k = 2 ∨ k = 3 ∨ k = 4 := by omega
  simp only [digLines, List.mem_cons, List.not_mem_nil, or_false] at hline
  rcases hk with rfl | rfl | rfl | rfl <;>
    simp only [selectEvents, State.offEvent_eq, State.onEvent_eq, Int.reduceEq, if_true, if_false, replay_cons,
      replay_nil, hlevel] <;>
    rcases hline with rfl | rfl | rfl | rfl <;> rfl

theorem avoids_selectEvents {r : Role} (hr : ∀ line ∈ digLines, r ≠ line.2) (k : Int) : Avoids s (selectEvents s k) r := by
  intro e he
  obtain ⟨line, hline, v, rfl⟩ := eq_wEvent_of_mem_selectEvents he
  simpa [State.wEvent, Event.pin?] using (binding_ne_of_unaliased hu hline (hr line hline)).symm

theorem segmentEvents_avoid_enables (g : Pattern) : ∀ line ∈ digLines, Avoids s (segmentEvents s g) line.2 := by
  intro line hline e he
  obtain ⟨seg, hseg, rfl⟩ := List.mem_map.1 (segmentEvents_eq s g ▸ he)
  have hne := binding_ne_of_unaliased hu hline (ne_of_mem_segLines_of_mem_digLines seg hseg line hline)
  simpa [State.wEvent, Event.pin?] using hne

theorem dpEvent_avoids_enables (v : Level) : ∀ line ∈ digLines, Avoids s [s.wEvent .dp v] line.2 :=
  fun line hline => avoids_wEvent (binding_ne_of_unaliased hu hline (dp_ne_of_mem_digLines line hline)) v

end

/-- What the display shows: slot `k` alone, its point at level `point` and the pattern `g` on the segment lines. -/
def Displays (s : State) (k : Int) (g : Pattern) (point : Level) (ps : Pins) : Prop :=
  OnlySlot s k ps ∧ lineLevel s ps .dp = some point ∧
    ∀ seg ∈ segLines, lineLevel s ps seg.2 = some (s.segLevel g seg.1)

section
variable {s : State} (hnodup : (Role.all.map s.binding).Nodup)
include hnodup

theorem binding_ne_of_nodup {q r : Role} (h : q ≠ r) : s.binding q ≠ s.binding r :=
  fun he => h (List.inj_on_of_nodup_map hnodup (role_mem_all q) (role_mem_all r) he)

theorem enablesUnaliased_of_nodup : EnablesUnaliased s :=
  fun _ _ _ _ hr => binding_ne_of_nodup hnodup hr

theorem lineLevel_replay_segmentEvents (g : Pattern) (ps : Pins) :
    ∀ seg ∈ segLines, lineLevel s (replay (segmentEvents s g) ps) seg.2 = some (s.segLevel g seg.1) := by
  intro seg hseg
  simp only [segLines, List.mem_cons, List.not_mem_nil, or_false] at hseg
  simp only [segmentEvents, replay_cons, replay_nil, lineLevel, lvl_wEvent hnodup]
  rcases hseg with rfl | rfl | rfl | rfl | rfl | rfl | rfl <;> rfl

theorem segmentEvents_avoid_dp (g : Pattern) : Avoids s (segmentEvents s g) .dp := by
  intro e he
  obtain ⟨seg, hseg, rfl⟩ := List.mem_map.1 (segmentEvents_eq s g ▸ he)
  simpa [State.wEvent, Event.pin?] using binding_ne_of_nodup hnodup (ne_dp_of_mem_segLines seg hseg)

/-- A slot-draw shows its pattern and its point in its slot, whatever was shown (R104). -/
theorem displays_slotDrawEvents {k : Int} (hk : 1 ≤ k ∧ k ≤ 4) (g : Pattern) (point : Level) (ps : Pins) :
    Displays s k g point (replay (slotDrawEvents s k g point) ps) := by
  have hu := enablesUnaliased_of_nodup hnodup
  simp only [slotDrawEvents, replay_append]
  refine ⟨?_, ?_, fun seg hseg => ?_⟩
  · refine onlySlot_replay_of_avoids (fun line _ => avoids_hold s _ line.2) ?_
    refine onlySlot_replay_of_avoids (segmentEvents_avoid_enables hu g) ?_
    exact onlySlot_replay_of_avoids (dpEvent_avoids_enables hu point) (onlySlot_replay_selectEvents hu hk ps)
  · rw [lineLevel_replay_of_avoids (avoids_hold s _ .dp), lineLevel_replay_of_avoids (segmentEvents_avoid_dp hnodup g)]
    exact lineLevel_wEvent_self s _ .dp _
  · rw [lineLevel_replay_of_avoids (avoids_hold s _ seg.2)]
    exact lineLevel_replay_segmentEvents hnodup g _ seg hseg

/-- A point lights in its slot and leaves the pattern shown (R106, R107). -/
theorem displays_pointEvents {k : Int} (hk : 1 ≤ k ∧ k ≤ 4) {g : Pattern} {point : Level} {ps : Pins}
    (hps : Displays s k g point ps) : Displays s k g s.config.dpLit (replay (pointEvents s k) ps) := by
  have hu := enablesUnaliased_of_nodup hnodup
  obtain ⟨-, -, hsegs⟩ := hps
  rw [pointEvents, ← List.singleton_append, ← List.append_assoc, replay_append, replay_append]
  refine ⟨?_, ?_, fun seg hseg => ?_⟩
  · refine onlySlot_replay_of_avoids (fun line _ => avoids_hold s _ line.2) ?_
    exact onlySlot_replay_of_avoids (dpEvent_avoids_enables hu _) (onlySlot_replay_selectEvents hu hk ps)
  · rw [lineLevel_replay_of_avoids (avoids_hold s _ .dp)]
    exact lineLevel_wEvent_self s _ .dp _
  · rw [lineLevel_replay_of_avoids (avoids_hold s _ seg.2),
      lineLevel_replay_of_avoids (avoids_wEvent (binding_ne_of_nodup hnodup (ne_dp_of_mem_segLines seg hseg).symm) _),
      lineLevel_replay_of_avoids (avoids_selectEvents hu (ne_of_mem_segLines_of_mem_digLines seg hseg) k)]
    exact hsegs seg hseg

end

/-- Settles O59: the last slot-draw of "Err" decides what is shown. -/
theorem renderErrorEndsShowingR : Obligations.RenderErrorEndsShowingR := by
  intro s hs hnodup
  have hshown : Displays s 3 s.config.glyphLut[11] s.config.dpUnlit (replay (errEvents s) s.gpio.pins) := by
    rw [errEvents, replay_append]
    exact displays_slotDrawEvents hnodup (by decide) _ _ _
  obtain ⟨hslot, hpoint, hsegs⟩ := hshown
  refine ⟨_, execRenderError_of_boundConfigured hs, ?_, ?_, fun seg hseg => ?_⟩
  · rw [State.emitted_activeSlots, activeSlotsIn_of_onlySlot hslot]
    decide
  · rw [State.emitted_roleLevel, hpoint]
  · rw [State.emitted_roleLevel, hsegs seg hseg]

/-- The digits before the last one of a valid request are at most three (R83). -/
theorem countP_isDigit_le_of_valid_append {before rest : List Byte} {d : Byte} (hd : isDigit d = true)
    (hvalid : valid (before ++ d :: rest) = true) : before.countP isDigit ≤ 3 := by
  obtain ⟨-, -, hdigits, -⟩ := (valid_iff _).1 hvalid
  rw [List.countP_append, List.countP_cons_of_pos hd] at hdigits
  omega

/-- The last two characters draw from the counter those before them leave, which the point does not move (R106). -/
theorem eventsOf_renderDigits_digit_point (s : State) (before : List Byte) {d : Byte} (hd : isDigit d = true) :
    eventsOf s (renderDigits s.config 1 (before ++ [d, 0x2E#8])) =
      eventsOf s (renderDigits s.config 1 before) ++
        slotDrawEvents s (counterAfter s before) (s.digitGlyph d) s.config.dpUnlit ++
        pointEvents s (counterAfter s before) := by
  have hsplit := eventsOf_renderDigits_append s [] before [d, 0x2E#8]
  rw [counterAfter_nil, List.nil_append, eventsOf_renderDigits_cons, eventsOf_renderDigits_cons,
    charEventsAt_digit s _ hd, charEventsAt_point, counterAfter_append_digit s before hd, add_sub_cancel_right] at hsplit
  simpa [renderDigits] using hsplit

/-- Settles O57: the digit is drawn in its slot, and its point then lights in the same slot. -/
theorem pointLightsTheDigitBeforeIt : Obligations.PointLightsTheDigitBeforeIt := by
  intro s before d hs hnodup hpolicy hd hvalid
  have hcounter := counterAfter_of_netZero hpolicy before
  have hdigits := countP_isDigit_le_of_valid_append hd hvalid
  have hslot : 1 ≤ counterAfter s before ∧ counterAfter s before ≤ 4 := by omega
  have hshown : Displays s (counterAfter s before) (s.digitGlyph d) s.config.dpLit
      (replay (eventsOf s (renderDigits s.config 1 (before ++ [d, 0x2E#8]))) s.gpio.pins) := by
    rw [eventsOf_renderDigits_digit_point s before hd, replay_append, replay_append]
    exact displays_pointEvents hnodup hslot (displays_slotDrawEvents hnodup hslot _ _ _)
  obtain ⟨honly, hpoint, hsegs⟩ := hshown
  refine ⟨_, exec_renderValue_of_valid hs hvalid, hpoint, fun line hline => ?_, hsegs⟩
  rw [hcounter] at honly
  exact honly line hline

end Sys2Proof.Machine
end

section
/-! PROOFS. At most one enable line active at every instant (R102, R172, R180): which event lists keep the premises of
the multiplexing invariant after every beginning of them, and which establish them. -/

namespace Sys2Proof.Machine

/-- Premise (a) of R180 and the claim itself, at the instant when the pins are `ps`: the four enable levels are known
and at most one is active. -/
def MuxAt (s : State) (ps : Pins) : Prop :=
  (∀ line ∈ digLines, lineLevel s ps line.2 ≠ none) ∧ (activeSlotsIn s ps).length ≤ 1

theorem muxPremises_iff (s : State) : MuxPremises s ↔ MuxAt s s.gpio.pins ∧ EnablesUnaliased s := and_assoc.symm

theorem muxPremises_emitted {s : State} {evs : List Event} (hu : EnablesUnaliased s)
    (h : MuxAt s (replay evs s.gpio.pins)) (len : Nat) : MuxPremises (s.emitted evs len) :=
  (muxPremises_iff _).2 ⟨h, hu⟩

/-- No more slots are active when every line active after was active before. -/
theorem length_activeSlotsIn_le {s t : State} {ps ps' : Pins} (hconfig : t.config = s.config)
    (h : ∀ line ∈ digLines, lineLevel t ps' line.2 = some s.config.enActive →
      lineLevel s ps line.2 = some s.config.enActive) :
    (activeSlotsIn t ps').length ≤ (activeSlotsIn s ps).length := by
  simp only [activeSlotsIn, List.length_map, ← List.countP_eq_length_filter, hconfig]
  exact List.countP_mono_left fun line hline hactive => by
    simpa using h line hline (by simpa using hactive)

theorem muxAt_congr {s : State} {ps ps' : Pins} (h : ∀ line ∈ digLines, lineLevel s ps' line.2 = lineLevel s ps line.2)
    (hps : MuxAt s ps) : MuxAt s ps' :=
  ⟨fun line hline => h line hline ▸ hps.1 line hline,
    (length_activeSlotsIn_le rfl fun line hline hactive => h line hline ▸ hactive).trans hps.2⟩

/-- The four slots are numbered apart (R21). -/
theorem length_filter_slot_le_one (k : Int) : (digLines.filter fun line => line.1 = k).length ≤ 1 := by
  have hcount : (digLines.map (·.1)).count k ≤ 1 := List.nodup_iff_count_le_one.1 (by decide) k
  rw [List.count, List.countP_map] at hcount
  rw [← List.countP_eq_length_filter]
  exact hcount

theorem muxAt_of_onlySlot {s : State} {k : Int} {ps : Pins} (h : OnlySlot s k ps) : MuxAt s ps := by
  refine ⟨fun line hline => by simp [h line hline], ?_⟩
  rw [activeSlotsIn_of_onlySlot h, List.length_map]
  exact length_filter_slot_le_one k

/-- The events keep `MuxAt` after every beginning of them. -/
def KeepsMux (s : State) (evs : List Event) : Prop := ∀ ps, MuxAt s ps → ∀ n, MuxAt s (replay (evs.take n) ps)

/-- The events end in `MuxAt` whatever the pins were before. -/
def EstablishesMux (s : State) (evs : List Event) : Prop := ∀ ps, MuxAt s (replay evs ps)

theorem KeepsMux.replay {s : State} {evs : List Event} (h : KeepsMux s evs) {ps : Pins} (hps : MuxAt s ps) :
    MuxAt s (replay evs ps) := by
  simpa using h ps hps evs.length

theorem keepsMux_nil (s : State) : KeepsMux s [] := fun _ hps n => by simpa using hps

theorem keepsMux_append {s : State} {a b : List Event} (ha : KeepsMux s a) (hb : KeepsMux s b) :
    KeepsMux s (a ++ b) := by
  intro ps hps n
  rw [List.take_append, replay_append]
  exact hb _ (ha ps hps n) _

theorem keepsMux_singleton {s : State} {e : Event} (h : ∀ ps, MuxAt s ps → MuxAt s (e.effect ps)) :
    KeepsMux s [e] := by
  intro ps hps n
  cases n with
  | zero => exact hps
  | succ n => simpa using h ps hps

/-- A last event after which the premises hold in any case. -/
theorem keepsMux_concat {s : State} {evs : List Event} {e : Event} (h : KeepsMux s evs)
    (he : EstablishesMux s (evs ++ [e])) : KeepsMux s (evs ++ [e]) := by
  intro ps hps n
  by_cases hn : n ≤ evs.length
  · rw [List.take_append_of_le_length hn]
    exact h ps hps n
  · rw [List.take_of_length_le (by simpa using Nat.lt_of_not_le hn)]
    exact he ps

theorem establishesMux_append_keeps {s : State} {a b : List Event} (ha : EstablishesMux s a) (hb : KeepsMux s b) :
    EstablishesMux s (a ++ b) := by
  intro ps
  rw [replay_append]
  exact hb.replay (ha ps)

theorem establishesMux_append_left {s : State} {b : List Event} (a : List Event) (hb : EstablishesMux s b) :
    EstablishesMux s (a ++ b) := by
  intro ps
  rw [replay_append]
  exact hb _

theorem keepsMux_of_avoids {s : State} {evs : List Event} (h : ∀ line ∈ digLines, Avoids s evs line.2) :
    KeepsMux s evs := by
  intro ps hps n
  refine muxAt_congr (fun line hline => lineLevel_replay_of_avoids (fun e he => ?_) ps) hps
  exact h line hline e (List.mem_of_mem_take he)

theorem keepsMux_hold (s : State) (n : Nat) : KeepsMux s [.h n] :=
  keepsMux_of_avoids fun line _ => avoids_hold s n line.2

/-- An inactive write makes no line active (R102). -/
theorem muxAt_offEvent {s : State} {ps : Pins} (hps : MuxAt s ps) (r : Role) :
    MuxAt s ((s.offEvent r).effect ps) := by
  have hlevel : ∀ q, lineLevel s ((s.offEvent r).effect ps) q =
      if s.binding q = s.binding r then some s.config.enInactive else lineLevel s ps q := fun q => lvl_write _ _ _ _
  refine ⟨fun line hline => ?_, (length_activeSlotsIn_le rfl fun line _ hactive => ?_).trans hps.2⟩
  · rw [hlevel]
    split
    · simp
    · exact hps.1 line hline
  · rw [hlevel] at hactive
    split at hactive
    · simp at hactive
    · exact hactive

theorem keepsMux_offEvents (s : State) (roles : List Role) : KeepsMux s (roles.map s.offEvent) := by
  induction roles with
  | nil => exact keepsMux_nil s
  | cons r roles ih => exact keepsMux_append (keepsMux_singleton fun _ hps => muxAt_offEvent hps r) ih

/-- The three inactive writes of a select come before its active one (R102). -/
theorem selectEvents_eq_off_on (s : State) {k : Int} (hk : 1 ≤ k ∧ k ≤ 4) :
    ∃ (roles : List Role) (r : Role), selectEvents s k = roles.map s.offEvent ++ [s.onEvent r] := by
  have hk : k = 1 ∨ k = 2 ∨ k = 3 ∨ k = 4 := by omega
  rcases hk with rfl | rfl | rfl | rfl
  · exact ⟨[.dig2, .dig3, .dig4], .dig1, rfl⟩
  · exact ⟨[.dig1, .dig3, .dig4], .dig2, rfl⟩
  · exact ⟨[.dig1, .dig2, .dig4], .dig3, rfl⟩
  · exact ⟨[.dig1, .dig2, .dig3], .dig4, rfl⟩

theorem keepsMux_clearEvents (s : State) : KeepsMux s (clearEvents s) :=
  keepsMux_offEvents s [.dig1, .dig2, .dig3, .dig4]

theorem establishesMux_clearEvents (s : State) : EstablishesMux s (clearEvents s) := fun ps =>
  ⟨fun _ hline => by simp [lineLevel, lvl_replay_clearEvents hline], by simp [activeSlotsIn_replay_clearEvents]⟩

theorem selectEvents_of_outside (s : State) {k : Int} (hk : ¬ (1 ≤ k ∧ k ≤ 4)) : selectEvents s k = [] := by
  rw [← eventsOf_selectDigit, selectDigit_of_outside _ hk, eventsOf_nil]

section
variable {s : State} (hu : EnablesUnaliased s)
include hu

theorem establishesMux_selectEvents {k : Int} (hk : 1 ≤ k ∧ k ≤ 4) : EstablishesMux s (selectEvents s k) :=
  fun ps => muxAt_of_onlySlot (onlySlot_replay_selectEvents hu hk ps)

theorem keepsMux_selectEvents (k : Int) : KeepsMux s (selectEvents s k) := by
  by_cases hk : 1 ≤ k ∧ k ≤ 4
  · obtain ⟨roles, r, heq⟩ := selectEvents_eq_off_on s hk
    have hest := establishesMux_selectEvents hu hk
    rw [heq] at hest ⊢
    exact keepsMux_concat (keepsMux_offEvents s roles) hest
  · rw [selectEvents_of_outside s hk]
    exact keepsMux_nil s

theorem keepsMux_dpEvent (v : Level) : KeepsMux s [s.wEvent .dp v] := keepsMux_of_avoids (dpEvent_avoids_enables hu v)

theorem keepsMux_segmentEvents (g : Pattern) : KeepsMux s (segmentEvents s g) :=
  keepsMux_of_avoids (segmentEvents_avoid_enables hu g)

/-- A slot-draw is a select and events off the enable lines (R104). -/
theorem keepsMux_slotDrawEvents (k : Int) (g : Pattern) (point : Level) : KeepsMux s (slotDrawEvents s k g point) :=
  keepsMux_append (keepsMux_append (keepsMux_append (keepsMux_selectEvents hu k) (keepsMux_dpEvent hu point))
    (keepsMux_segmentEvents hu g)) (keepsMux_hold s _)

theorem establishesMux_slotDrawEvents {k : Int} (hk : 1 ≤ k ∧ k ≤ 4) (g : Pattern) (point : Level) :
    EstablishesMux s (slotDrawEvents s k g point) :=
  establishesMux_append_keeps (establishesMux_append_keeps (establishesMux_append_keeps
    (establishesMux_selectEvents hu hk) (keepsMux_dpEvent hu point)) (keepsMux_segmentEvents hu g)) (keepsMux_hold s _)

theorem keepsMux_pointEvents (k : Int) : KeepsMux s (pointEvents s k) :=
  keepsMux_append (keepsMux_selectEvents hu k) (keepsMux_append (keepsMux_dpEvent hu _) (keepsMux_hold s _))

theorem keepsMux_charEventsAt (k : Int) (c : Byte) : KeepsMux s (charEventsAt s k c) := by
  unfold charEventsAt
  split
  · exact keepsMux_slotDrawEvents hu k _ _
  · exact keepsMux_pointEvents hu _

theorem keepsMux_renderDigits (pre rest : List Byte) :
    KeepsMux s (eventsOf s (renderDigits s.config (counterAfter s pre) rest)) := by
  induction rest generalizing pre with
  | nil => exact keepsMux_nil s
  | cons c rest ih =>
    rw [eventsOf_renderDigits_cons]
    exact keepsMux_append (keepsMux_charEventsAt hu _ c) (ih _)

theorem keepsMux_errEvents : KeepsMux s (errEvents s) :=
  keepsMux_append (keepsMux_append (keepsMux_slotDrawEvents hu 1 _ _) (keepsMux_slotDrawEvents hu 2 _ _))
    (keepsMux_slotDrawEvents hu 3 _ _)

theorem establishesMux_errEvents : EstablishesMux s (errEvents s) :=
  establishesMux_append_left _ (establishesMux_slotDrawEvents hu (by decide) _ _)

theorem keepsMux_onEvents : KeepsMux s (onEvents s) :=
  keepsMux_append (keepsMux_slotDrawEvents hu 1 _ _) (keepsMux_slotDrawEvents hu 2 _ _)

theorem establishesMux_onEvents : EstablishesMux s (onEvents s) :=
  establishesMux_append_left _ (establishesMux_slotDrawEvents hu (by decide) _ _)

theorem keepsMux_offWordEvents : KeepsMux s (offEvents s) :=
  keepsMux_append (keepsMux_append (keepsMux_slotDrawEvents hu 1 _ _) (keepsMux_slotDrawEvents hu 2 _ _))
    (keepsMux_slotDrawEvents hu 3 _ _)

theorem establishesMux_offWordEvents : EstablishesMux s (offEvents s) :=
  establishesMux_append_left _ (establishesMux_slotDrawEvents hu (by decide) _ _)

/-- Whatever comes before and after it, a digit drawn in one of the four slots establishes the premises. -/
theorem establishesMux_renderDigits {pre rest : List Byte} {d : Byte} (hd : isDigit d = true)
    (hslot : 1 ≤ counterAfter s pre ∧ counterAfter s pre ≤ 4) :
    EstablishesMux s (eventsOf s (renderDigits s.config 1 (pre ++ d :: rest))) := by
  have hsplit := eventsOf_renderDigits_append s [] pre (d :: rest)
  rw [counterAfter_nil, List.nil_append, eventsOf_renderDigits_cons, charEventsAt_digit s _ hd] at hsplit
  rw [hsplit]
  exact establishesMux_append_left _
    (establishesMux_append_keeps (establishesMux_slotDrawEvents hu hslot _ _) (keepsMux_renderDigits hu _ _))

end

/-- The first digit of a valid request comes first or right after a leading point (R82). -/
theorem exists_first_digit_of_valid {req : List Byte} (hvalid : valid req = true) (hdigit : ∃ c ∈ req, isDigit c = true) :
    ∃ pre d rest, req = pre ++ d :: rest ∧ pre.length ≤ 1 ∧ isDigit d = true := by
  obtain ⟨hchars, hadjacent, -, -⟩ := (valid_iff req).1 hvalid
  cases req with
  | nil => simp at hdigit
  | cons c rest =>
    rcases hchars c List.mem_cons_self with hc | rfl
    · exact ⟨[], c, rest, rfl, by simp, hc⟩
    · cases rest with
      | nil => simp at hdigit
      | cons d rest =>
        have hne : d ≠ 0x2E#8 := by simpa using ((noAdjacentPoints_cons _ _).1 hadjacent).1 rfl
        exact ⟨[0x2E#8], d, rest, rfl, by simp, (hchars d (by simp)).resolve_right hne⟩

/-- The counter advances by at most one a character (R111). -/
theorem counterAfter_bounds (s : State) (pre : List Byte) :
    1 ≤ counterAfter s pre ∧ counterAfter s pre ≤ 1 + pre.length := by
  have hcount : pre.countP isDigit ≤ pre.length := List.countP_le_length
  cases hpolicy : s.config.dpSlotPolicy with
  | netZero => rw [counterAfter_of_netZero hpolicy]; omega
  | drift => rw [counterAfter_of_drift hpolicy]; omega

/-- Settles O52: each of these commands selects one of the four slots, or clears all four lines, and then keeps the
premises. -/
theorem firstSelectEstablishesThePremises : Obligations.FirstSelectEstablishesThePremises := by
  intro s i hs hu hi
  have emitted : ∀ {evs len}, exec i s = .next (s.emitted evs len) → EstablishesMux s evs →
      ∃ t, exec i s = .next t ∧ MuxPremises t := fun hexec hest => ⟨_, hexec, muxPremises_emitted hu (hest _) _⟩
  rcases hi with rfl | rfl | rfl | rfl | ⟨slot, rfl, hlow, hhigh⟩ | ⟨req, rfl, hlen, hreq⟩
  · exact emitted (execClear_of_boundConfigured hs) (establishesMux_clearEvents s)
  · exact emitted (execRenderError_of_boundConfigured hs) (establishesMux_errEvents hu)
  · exact emitted (execRenderState_of_flag hs (b := false) rfl) (establishesMux_offWordEvents hu)
  · exact emitted (execRenderState_of_flag hs (b := true) rfl) (establishesMux_onEvents hu)
  · have hslot : 1 ≤ (slot.toNat : Int) ∧ (slot.toNat : Int) ≤ 4 := by bv_omega
    exact emitted (execSelectDigit_of_boundConfigured hs slot) (establishesMux_selectEvents hu hslot)
  · cases hvalid : valid req with
    | false => exact emitted (execRenderValue_of_invalid hs hlen hvalid) (establishesMux_errEvents hu)
    | true =>
      obtain ⟨pre, d, rest, rfl, hpre, hd⟩ := exists_first_digit_of_valid hvalid (hreq.resolve_left (by simp [hvalid]))
      have hslot := counterAfter_bounds s pre
      exact emitted (execRenderValue_of_valid hs hlen hvalid) (establishesMux_renderDigits hu hd (by omega))

/-- What R180 says of a step from `s` to `t`: at most one enable line is active at every instant of it and after it,
and the premises hold again unless the frame is a setter. -/
def MuxStep (s t : State) : Prop :=
  ∃ evs, t.gpio.trace = s.gpio.trace ++ evs ∧
    (∀ n, (activeSlotsIn s (replay (evs.take n) s.gpio.pins)).length ≤ 1) ∧ t.activeSlots.length ≤ 1 ∧
    ((∀ r p rest, fetch s ≠ .frame (setter r p) rest) → MuxPremises t)

theorem muxStep_emitted {s : State} (hmux : MuxPremises s) {evs : List Event} (h : KeepsMux s evs) (len : Nat) :
    MuxStep s (s.emitted evs len) := by
  obtain ⟨hat, hu⟩ := (muxPremises_iff s).1 hmux
  exact ⟨evs, rfl, fun n => (h _ hat n).2, (h.replay hat).2, fun _ => muxPremises_emitted hu (h.replay hat) len⟩

/-- A fault that comes before any event touches no pin (R155). -/
theorem muxStep_raiseFault {s : State} (hmux : MuxPremises s) (code : FaultCode) (op : Byte) :
    MuxStep s (raiseFault code op s) := by
  obtain ⟨hat, -⟩ := (muxPremises_iff s).1 hmux
  exact ⟨[], by simp, fun n => by simpa using hat.2, hat.2, fun _ => hmux⟩

/-- Every command but a setter keeps the premises at every instant (R180). -/
theorem exec_muxStep {i : Instr} {s t : State} (hs : BoundConfigured s) (hmux : MuxPremises s)
    (hi : ∀ r p, i ≠ setter r p) (h : exec i s = .next t) : MuxStep s t := by
  have hu := ((muxPremises_iff s).1 hmux).2
  have emitted : ∀ {evs len}, exec i s = .next (s.emitted evs len) → KeepsMux s evs → MuxStep s t :=
    fun hexec hkeeps => Host.Outcome.next.inj (h.symm.trans hexec) ▸ muxStep_emitted hmux hkeeps _
  rcases instr_cases i with ⟨req, rfl⟩ | ⟨flag, rfl⟩ | rfl | rfl | ⟨slot, rfl⟩ | ⟨r, p, rfl⟩
  · by_cases hlen : req.length ≤ 255
    · cases hvalid : valid req with
      | true =>
        refine emitted (execRenderValue_of_valid hs hlen hvalid) ?_
        exact counterAfter_nil s ▸ keepsMux_renderDigits hu [] req
      | false => exact emitted (execRenderValue_of_invalid hs hlen hvalid) (keepsMux_errEvents hu)
    · simp [exec, execRenderValue, hlen] at h
  · cases hflag : flagOf flag with
    | none =>
      obtain rfl := Host.Outcome.next.inj (h.symm.trans (execRenderState_of_reserved s hflag))
      exact muxStep_raiseFault hmux _ _
    | some b =>
      refine emitted (execRenderState_of_flag hs hflag) ?_
      cases b with
      | true => exact keepsMux_onEvents hu
      | false => exact keepsMux_offWordEvents hu
  · exact emitted (execRenderError_of_boundConfigured hs) (keepsMux_errEvents hu)
  · exact emitted (execClear_of_boundConfigured hs) (keepsMux_clearEvents s)
  · exact emitted (execSelectDigit_of_boundConfigured hs slot) (keepsMux_selectEvents hu _)
  · exact absurd rfl (hi r p)

/-- A configured pin has no known level, so configuring one activates no line (R44). -/
theorem length_activeSlotsIn_configure_le (s : State) (p : PinId) (ps : Pins) :
    (activeSlotsIn s ((Event.cfg p).effect ps)).length ≤ (activeSlotsIn s ps).length := by
  refine length_activeSlotsIn_le rfl fun line _ hactive => ?_
  rw [lineLevel, lvl_configure] at hactive
  split at hactive
  · cases hactive
  · exact hactive

/-- Nor does binding a role to it (R130). -/
theorem length_activeSlots_configure_bind_le (s : State) (r : Role) (p : PinId) (len : Nat) :
    ((s.emitted [.cfg p] len).setBinding r p).activeSlots.length ≤ s.activeSlots.length := by
  refine length_activeSlotsIn_le rfl fun line _ hactive => ?_
  rw [lineLevel, State.setBinding_gpio, State.emitted_gpio, replay_cons, replay_nil, lvl_configure] at hactive
  split at hactive
  · cases hactive
  · next hne =>
    have hline : line.2 ≠ r := by
      rintro rfl
      exact hne (State.binding_setBinding_self _ _ _)
    rwa [State.binding_setBinding_of_ne hline] at hactive

/-- A setter activates no line; its new pin has no known level, so premise (a) may be lost (R130). -/
theorem muxStep_setter {s : State} (hmux : MuxPremises s) {r : Role} {b : Byte} {rest : List Byte}
    (hfetch : fetch s = .frame (setter r b) rest) (len : Nat) :
    MuxStep s ((s.emitted [.cfg (pinOf b)] len).setBinding r (pinOf b)) := by
  obtain ⟨hat, -⟩ := (muxPremises_iff s).1 hmux
  have hafter := (length_activeSlots_configure_bind_le s r (pinOf b) len).trans hat.2
  refine ⟨[.cfg (pinOf b)], rfl, fun n => ?_, hafter, fun hnot => absurd hfetch (hnot r b rest)⟩
  cases n with
  | zero => exact hat.2
  | succ n => simpa using (length_activeSlotsIn_configure_le s (pinOf b) s.gpio.pins).trans hat.2

/-- Settles O51: a select deactivates the other lines before it activates its own, everything else a command writes is
off the enable lines, and a setter or a fault activates none. -/
theorem atMostOneEnableAtEveryInstant : Obligations.AtMostOneEnableAtEveryInstant := by
  intro s t hs hmux hstep
  change MuxStep s t
  obtain ⟨-, ⟨op, -, rfl⟩ | ⟨i, rest, hfetch, hexec⟩⟩ := step_cases hstep
  · exact muxStep_raiseFault hmux _ _
  · by_cases hi : ∃ r b, i = setter r b
    · obtain ⟨r, b, rfl⟩ := hi
      cases hvalid : s.config.pinValid (pinOf b) with
      | false =>
        obtain rfl := Host.Outcome.next.inj (hexec.symm.trans (exec_setter_of_invalid hvalid r))
        exact muxStep_raiseFault hmux _ _
      | true =>
        obtain rfl := Host.Outcome.next.inj (hexec.symm.trans (exec_setter_of_valid hvalid r))
        exact muxStep_setter hmux hfetch 2
    · exact exec_muxStep hs hmux (fun r b hrb => hi ⟨r, b, hrb⟩) hexec

end Sys2Proof.Machine
end
